-- ==== Sys2Proof/Word.lean ====
section
/-!
DEFINITION. The word types of the Huffman bit-stream engine (HBE), each a plain bit vector of the width that
`spec/00_scope.md` R6 fixes. Bit 0 is the least significant bit of every one of them (R7), and all are unsigned.
-/

namespace Sys2Proof

/-- A symbol of the input alphabet: SYM_W = 8 bits (R6). -/
abbrev Symbol := BitVec 8

/-- A packed payload byte (R34). -/
abbrev Byte := BitVec 8

/-- A frequency count: COUNT_W = 32 bits (R6, R22). -/
abbrev Count := BitVec 32

/-- A tree node index: NODE_AW = 9 bits (R6, R28). -/
abbrev NodeIndex := BitVec 9

/-- A command word: CMD_W = 64 bits (R6, R70). -/
abbrev CommandWord := BitVec 64

/-- A response word: RSP_W = 32 bits (R6, R81). -/
abbrev ResponseWord := BitVec 32

end Sys2Proof
end

