-- ==== Sys2Proof/Config.lean ====
section
/-!
DEFINITION. The fixed parameters of the HBE (`spec/00_scope.md` R6). Every width stands in a type of `Word.lean`; here are the
sizes that the rules compare against. The spec leaves no value of the HBE open, so there is no free value here.
-/

namespace Sys2Proof.Config

/-- NSYMS: entries of HIST and of CT (R6, R22, R23). -/
@[simp] abbrev nsyms : Nat := 256

/-- NNODES: entries of TN (R6, R28). -/
@[simp] abbrev nnodes : Nat := 512

/-- MAXLEN: the longest code a CT entry can hold, in bits (R6, R23). -/
@[simp] abbrev maxLen : Nat := 255

/-- CHUNK_W: the most code bits one CT_SET or CT_APP carries (R6, R74). -/
@[simp] abbrev chunkW : Nat := 32

/-- The largest count a HIST entry can hold, 2^COUNT_W - 1 (R102). -/
@[simp] abbrev maxCount : Count := 0xFFFFFFFF#32

/-- ROOT: the index of the root node in TN (R6, R57). -/
@[simp] abbrev root : NodeIndex := 0#9

end Sys2Proof.Config
end

