-- ==== Sys2Proof/Syntax.lean ====
section
/-!
DEFINITION. The 17 commands of the HBE (`spec/30_encoding.md` R78), one constructor per row of `spec/opcode_table.json`, in the
table's order, with the operands of the command's format (R72 to R77). Operands are unsigned, at face value (R84).
-/

namespace Sys2Proof

/-- One command with its operand values. -/
inductive Instr where
  /-- `NOP` (format Z, R180). -/
  | nop
  /-- `RESET` (format Z, R181). -/
  | reset
  /-- `RD_STATUS` (format Z, R182). -/
  | rdStatus
  /-- `FA_CLR` (format Z, R101). -/
  | faClr
  /-- `FA_PUSH s` (format S, R102). -/
  | faPush (sym : Symbol)
  /-- `FA_RD s` (format S, R103). -/
  | faRd (sym : Symbol)
  /-- `CT_CLR` (format Z, R110). -/
  | ctClr
  /-- `CT_SET s, chunk` (format C, R111): `n` code bits right-aligned in `bits`. -/
  | ctSet (sym : Symbol) (n : BitVec 8) (bits : BitVec 32)
  /-- `CT_APP s, chunk` (format C, R112): `n` code bits right-aligned in `bits`. -/
  | ctApp (sym : Symbol) (n : BitVec 8) (bits : BitVec 32)
  /-- `BP_PUSH s` (format S, R121). -/
  | bpPush (sym : Symbol)
  /-- `BP_END` (format Z, R122). -/
  | bpEnd
  /-- `BP_RDPAD` (format Z, R123). -/
  | bpRdpad
  /-- `TN_CLR` (format Z, R140). -/
  | tnClr
  /-- `TN_WR idx, node` (format T, R141). -/
  | tnWr (idx : NodeIndex) (leaf lp rp : Bool) (left right : NodeIndex) (sym : Symbol)
  /-- `BU_CFG pad, nsym` (format B, R151). -/
  | buCfg (pad : BitVec 3) (nsym : BitVec 32)
  /-- `BU_BYTE b` (format S, R152). -/
  | buByte (b : Byte)
  /-- `BU_END` (format Z, R153). -/
  | buEnd
  deriving DecidableEq, Repr

end Sys2Proof
end

