-- ==== Sys2Proof/WellFormed.lean ====
section
/-!
DEFINITION. Which operand values a command may carry (`spec/30_encoding.md` R74, R76, R77). The limits on `idx`, `left`, `right`
(0 to 511) and on `pad` (0 to 7) are the operands' widths; the others are checked here.
-/

namespace Sys2Proof

/-- R74: `n` is 0 to 32 and `bits[31:n]` is 0. -/
def chunkWellFormed (n : BitVec 8) (bits : BitVec 32) : Bool :=
  decide (n.toNat ≤ Config.chunkW) && decide (bits.toNat < 2 ^ n.toNat)

/-- R76: a leaf has no child flag, an internal node has `sym = 0`, an absent child has a 0 index. -/
def nodeWellFormed (leaf lp rp : Bool) (left right : NodeIndex) (sym : Symbol) : Bool :=
  (!leaf || (!lp && !rp)) && (leaf || sym == 0#8) && (lp || left == 0#9) && (rp || right == 0#9)

/-- The commands that some legal word encodes (R79). -/
def Instr.wellFormed : Instr → Bool
  | .ctSet _ n bits => chunkWellFormed n bits
  | .ctApp _ n bits => chunkWellFormed n bits
  | .tnWr _ leaf lp rp left right sym => nodeWellFormed leaf lp rp left right sym
  | .nop | .reset | .rdStatus | .faClr | .faPush _ | .faRd _ | .ctClr | .bpPush _ | .bpEnd | .bpRdpad
  | .tnClr | .buCfg _ _ | .buByte _ | .buEnd => true

end Sys2Proof
end

