-- ==== Sys2Proof/Decode.lean ====
section
/-!
DEFINITION. Decoding and encoding of command words (`spec/30_encoding.md`). `decode` is total: a word is one of the 17 commands
with its operand values, or illegal with a named reason (R79, R80). `encode` is written from the same format tables (R72 to R77)
and the opcode map (R78). The file ends with the opcode map's match and mask columns and the reading of a table word.
-/

namespace Sys2Proof

/-- Why a word is illegal, after the list of R80. The machine raises the one fault `IllegalCommand` for all of them (R193). -/
inductive Illegal where
  /-- R80 (a): the opcode is none of the 17. -/
  | unassignedOpcode
  /-- R80 (b): a bit that belongs to no field is set. -/
  | reservedBit
  /-- R80 (c): format C with `n > 32`. -/
  | chunkTooLong
  /-- R80 (c): format C with a bit of `bits[31:n]` set. -/
  | chunkStrayBits
  /-- R80 (d): format T with `idx`, `left` or `right` above 511. -/
  | indexTooLarge
  /-- R80 (d): format T with `leaf = 1` and a child flag set. -/
  | leafWithChild
  /-- R80 (d): format T with `leaf = 0` and `sym ≠ 0`. -/
  | internalWithSymbol
  /-- R80 (d): format T with an absent child and a nonzero index for it. -/
  | absentChildIndex
  /-- R80 (e): format B with `pad > 7`. -/
  | paddingTooLarge
  deriving DecidableEq, Repr

/-! ### Fields of a word (R71 to R77) -/

/-- `op = word[63:56]` (R71). -/
def opField (w : CommandWord) : BitVec 8 := w.extractLsb' 56 8

/-- `word[7:0]`, the symbol or byte of formats S and T (R73, R76). -/
def lowField (w : CommandWord) : BitVec 8 := w.extractLsb' 0 8

/-- Format C: `sym = word[55:48]` (R74). -/
def chunkSymField (w : CommandWord) : Symbol := w.extractLsb' 48 8

/-- Format C: `n = word[47:40]` (R74). -/
def chunkLenField (w : CommandWord) : BitVec 8 := w.extractLsb' 40 8

/-- Formats C and B: `word[31:0]`, that is `bits` (R74) or `nsym` (R77). -/
def wordField (w : CommandWord) : BitVec 32 := w.extractLsb' 0 32

/-- Format T: `leaf = word[55]` (R76). -/
def leafField (w : CommandWord) : Bool := w.getLsbD 55

/-- Format T: `lp = word[54]` (R76). -/
def lpField (w : CommandWord) : Bool := w.getLsbD 54

/-- Format T: `rp = word[53]` (R76). -/
def rpField (w : CommandWord) : Bool := w.getLsbD 53

/-- Format T: `idx = word[51:40]`, 12 bits (R76). -/
def idxField (w : CommandWord) : BitVec 12 := w.extractLsb' 40 12

/-- Format T: `left = word[39:28]`, 12 bits (R76). -/
def leftField (w : CommandWord) : BitVec 12 := w.extractLsb' 28 12

/-- Format T: `right = word[27:16]`, 12 bits (R76). -/
def rightField (w : CommandWord) : BitVec 12 := w.extractLsb' 16 12

/-- Format B: `pad = word[39:32]`, 8 bits (R77). -/
def padField (w : CommandWord) : BitVec 8 := w.extractLsb' 32 8

/-! ### Decoding -/

/-- One check of a format: go on when it holds, else the word is illegal for the reason given. -/
def require (holds : Bool) (why : Illegal) (rest : Except Illegal Instr) : Except Illegal Instr :=
  if holds then rest else .error why

/-- Format Z (R72): `word[55:0]` is 0. -/
def decodeZ (i : Instr) (w : CommandWord) : Except Illegal Instr :=
  require (w.extractLsb' 0 56 == 0#56) .reservedBit (.ok i)

/-- Format S (R73): `word[55:8]` is 0. -/
def decodeS (make : BitVec 8 → Instr) (w : CommandWord) : Except Illegal Instr :=
  require (w.extractLsb' 8 48 == 0#48) .reservedBit (.ok (make (lowField w)))

/-- Format C (R74): `word[39:32]` is 0, `n` is at most 32, `bits[31:n]` is 0. -/
def decodeC (make : Symbol → BitVec 8 → BitVec 32 → Instr) (w : CommandWord) : Except Illegal Instr :=
  require (w.extractLsb' 32 8 == 0#8) .reservedBit <|
  require (decide ((chunkLenField w).toNat ≤ Config.chunkW)) .chunkTooLong <|
  require (decide ((wordField w).toNat < 2 ^ (chunkLenField w).toNat)) .chunkStrayBits <|
  .ok (make (chunkSymField w) (chunkLenField w) (wordField w))

/-- An index field fits NODE_AW bits: its top three bits are 0 (R76). -/
def indexFits (f : BitVec 12) : Bool := f.extractLsb' 9 3 == 0#3

/-- Format T (R76): bits 52 and 15:8 are 0, the indices are at most 511, and the flags agree with the other fields. -/
def decodeT (w : CommandWord) : Except Illegal Instr :=
  require (!w.getLsbD 52 && w.extractLsb' 8 8 == 0#8) .reservedBit <|
  require (indexFits (idxField w) && indexFits (leftField w) && indexFits (rightField w)) .indexTooLarge <|
  require (!leafField w || (!lpField w && !rpField w)) .leafWithChild <|
  require (leafField w || lowField w == 0#8) .internalWithSymbol <|
  require ((lpField w || leftField w == 0#12) && (rpField w || rightField w == 0#12)) .absentChildIndex <|
  .ok (.tnWr ((idxField w).setWidth 9) (leafField w) (lpField w) (rpField w)
    ((leftField w).setWidth 9) ((rightField w).setWidth 9) (lowField w))

/-- Format B (R77): `word[55:40]` is 0 and `pad` is at most 7. -/
def decodeB (w : CommandWord) : Except Illegal Instr :=
  require (w.extractLsb' 40 16 == 0#16) .reservedBit <|
  require (decide ((padField w).toNat ≤ 7)) .paddingTooLarge <|
  .ok (.buCfg ((padField w).setWidth 3) (wordField w))

/-- R79 with the opcode map of R78: the command a word stands for, or why it is illegal. -/
def decode (w : CommandWord) : Except Illegal Instr :=
  match opField w with
  | 0x00#8 => decodeZ .nop w
  | 0x01#8 => decodeZ .reset w
  | 0x02#8 => decodeZ .rdStatus w
  | 0x10#8 => decodeZ .faClr w
  | 0x11#8 => decodeS .faPush w
  | 0x12#8 => decodeS .faRd w
  | 0x20#8 => decodeZ .ctClr w
  | 0x21#8 => decodeC .ctSet w
  | 0x22#8 => decodeC .ctApp w
  | 0x30#8 => decodeS .bpPush w
  | 0x31#8 => decodeZ .bpEnd w
  | 0x32#8 => decodeZ .bpRdpad w
  | 0x40#8 => decodeZ .tnClr w
  | 0x41#8 => decodeT w
  | 0x50#8 => decodeB w
  | 0x51#8 => decodeS .buByte w
  | 0x52#8 => decodeZ .buEnd w
  | _ => .error .unassignedOpcode

/-! ### Encoding -/

/-- Format Z (R72). -/
def encodeZ (op : BitVec 8) : CommandWord := op ++ 0#56

/-- Format S (R73). -/
def encodeS (op : BitVec 8) (sym : BitVec 8) : CommandWord := op ++ 0#48 ++ sym

/-- Format C (R74). -/
def encodeC (op : BitVec 8) (sym : Symbol) (n : BitVec 8) (bits : BitVec 32) : CommandWord :=
  op ++ sym ++ n ++ 0#8 ++ bits

/-- Format T (R76): the flags digit `leaf lp rp 0`, the three indices in 12-bit fields, 8 zero bits, the symbol. -/
def encodeT (op : BitVec 8) (idx : NodeIndex) (leaf lp rp : Bool) (left right : NodeIndex) (sym : Symbol) : CommandWord :=
  op ++ BitVec.ofBool leaf ++ BitVec.ofBool lp ++ BitVec.ofBool rp ++ 0#1 ++ (0#3 ++ idx) ++ (0#3 ++ left) ++ (0#3 ++ right)
    ++ 0#8 ++ sym

/-- Format B (R77): `pad` in the low three bits of its 8-bit field. -/
def encodeB (op : BitVec 8) (pad : BitVec 3) (nsym : BitVec 32) : CommandWord :=
  op ++ 0#16 ++ (0#5 ++ pad) ++ nsym

/-- The word of a command (R78, R79: every command with legal operands has exactly one). -/
def encode : Instr → CommandWord
  | .nop => encodeZ 0x00#8
  | .reset => encodeZ 0x01#8
  | .rdStatus => encodeZ 0x02#8
  | .faClr => encodeZ 0x10#8
  | .faPush sym => encodeS 0x11#8 sym
  | .faRd sym => encodeS 0x12#8 sym
  | .ctClr => encodeZ 0x20#8
  | .ctSet sym n bits => encodeC 0x21#8 sym n bits
  | .ctApp sym n bits => encodeC 0x22#8 sym n bits
  | .bpPush sym => encodeS 0x30#8 sym
  | .bpEnd => encodeZ 0x31#8
  | .bpRdpad => encodeZ 0x32#8
  | .tnClr => encodeZ 0x40#8
  | .tnWr idx leaf lp rp left right sym => encodeT 0x41#8 idx leaf lp rp left right sym
  | .buCfg pad nsym => encodeB 0x50#8 pad nsym
  | .buByte b => encodeS 0x51#8 b
  | .buEnd => encodeZ 0x52#8

/-! ### The opcode map's match and mask columns (R78) -/

/-- Column `match` of the command's row in R78. -/
def tableMatch : Instr → CommandWord
  | .nop => 0x0000000000000000#64
  | .reset => 0x0100000000000000#64
  | .rdStatus => 0x0200000000000000#64
  | .faClr => 0x1000000000000000#64
  | .faPush _ => 0x1100000000000000#64
  | .faRd _ => 0x1200000000000000#64
  | .ctClr => 0x2000000000000000#64
  | .ctSet _ _ _ => 0x2100000000000000#64
  | .ctApp _ _ _ => 0x2200000000000000#64
  | .bpPush _ => 0x3000000000000000#64
  | .bpEnd => 0x3100000000000000#64
  | .bpRdpad => 0x3200000000000000#64
  | .tnClr => 0x4000000000000000#64
  | .tnWr _ _ _ _ _ _ _ => 0x4100000000000000#64
  | .buCfg _ _ => 0x5000000000000000#64
  | .buByte _ => 0x5100000000000000#64
  | .buEnd => 0x5200000000000000#64

/-- Column `mask` of the command's row in R78. -/
def tableMask : Instr → CommandWord
  | .nop | .reset | .rdStatus | .faClr | .ctClr | .bpEnd | .bpRdpad | .tnClr | .buEnd => 0xFFFFFFFFFFFFFFFF#64
  | .faPush _ | .faRd _ | .bpPush _ | .buByte _ => 0xFFFFFFFFFFFFFF00#64
  | .ctSet _ _ _ | .ctApp _ _ _ => 0xFF0000FF00000000#64
  | .tnWr _ _ _ _ _ _ _ => 0xFF1E00E00E00FF00#64
  | .buCfg _ _ => 0xFFFFFF0000000000#64

/-! ### Table words -/

/-- The command word whose low `nbits` bits are those of `w` and whose other bits are 0. A command is one 64-bit unit (R70, R53), so
bit 0 of the table's numbering is bit 0 of the word. -/
def tableWord (nbits w : Nat) : CommandWord := BitVec.ofNat 64 (w % 2 ^ nbits)

/-- The command the decoder reads from a word given as the opcode table numbers it; none where the word is illegal. -/
def decodeTableWord (nbits w : Nat) : Option Instr :=
  match decode (tableWord nbits w) with
  | .ok i => some i
  | .error _ => none

end Sys2Proof
end

