-- ==== Sys2Proof/Machine/State.lean ====
section
/-!
DEFINITION. The whole architectural state of the HBE (`spec/10_state.md` R20), its reset value (R36), the names of its faults (R191)
and the two kinds of stop an outcome may have. Everything is plain data.
-/

namespace Sys2Proof.Machine

/-- One entry of the code table CT (R23). `code` is the 255-bit field: bit `i` of it is the code bit `code[i]`, `code[0]` being the
first bit (the root edge); positions at and above `len` are 0 and never read. -/
structure CodeEntry where
  /-- 1 when the symbol has a code. -/
  valid : Bool
  /-- Number of bits of the code, 0 to 255. -/
  len : BitVec 8
  /-- The code bits, `code[i]` in bit `i`. -/
  code : BitVec 255
  deriving DecidableEq, Repr

/-- One entry of the tree memory TN (R29). -/
structure TreeNode where
  /-- 1 when the entry has been written since the last reset or `TN_CLR`. -/
  valid : Bool
  /-- The document's `is_leaf`. -/
  leaf : Bool
  /-- 1 when the left child is present. -/
  lp : Bool
  /-- 1 when the right child is present. -/
  rp : Bool
  /-- Index of the left child, 0 when it is absent. -/
  left : NodeIndex
  /-- Index of the right child, 0 when it is absent. -/
  right : NodeIndex
  /-- The leaf's symbol, 0 on an internal node. -/
  sym : Symbol
  deriving DecidableEq, Repr

/-- The faults the HBE records in ERR (R191). A fault of the HBE is a NEXT state with ERR and ERRINFO written (R196), never a stop of
the model. -/
inductive FaultName where
  /-- Code 1, reserved: the host's Tree Builder raises it, the HBE never does (R191). -/
  | emptyInput
  /-- Code 2, reserved: the host's Tree Codec raises it, the HBE never does (R191). -/
  | corruptHeader
  /-- Code 3, raised by `BP_PUSH` on a symbol with no code (R121). -/
  | unknownSymbol
  /-- Code 4, raised by `BU_BYTE` and `BU_END` (R153, R155). -/
  | corruptPayload
  /-- Code 5, raised by `FA_PUSH` on a full count (R102). -/
  | countOverflow
  /-- Code 6, raised at decode on an illegal word (R193). -/
  | illegalCommand
  /-- Code 7, raised by `CT_APP` (R112). -/
  | codeTable
  deriving DecidableEq, Repr

/-- A table memory (R50): the entries that differ from the table's reset entry, as pairs of an index and the whole entry there, the
indices strictly rising. An index that is not listed holds the reset entry (R36). The HBE has no byte-addressed memory (R50, R55). -/
abbrev Table (α : Type) := List (Nat × α)

/-- The state of the HBE, and with it the host's list of command words and the position in it (R21). -/
structure State where
  /-- HIST: 256 counts of 32 bits, indexed by symbol (R22). -/
  hist : Table Count
  /-- CT: 256 code entries, indexed by symbol (R23). -/
  ct : Table CodeEntry
  /-- TN: 512 tree nodes, indexed by node index (R28). -/
  tn : Table TreeNode
  /-- ACC: the bit buffer, pending bits left-aligned (R24). -/
  acc : BitVec 8
  /-- NBITS: the number of pending bits in ACC (R25). -/
  nbits : BitVec 3
  /-- PAD: the padding count of the most recent `BP_END` (R26). -/
  pad : BitVec 3
  /-- CUR: the node the walker stands on (R30). -/
  cur : NodeIndex
  /-- HOLD: the payload byte held back (R31). -/
  hold : Byte
  /-- HOLDV: a byte is held (R31). -/
  holdv : Bool
  /-- BU_PAD: the padding count of the payload being unpacked (R32). -/
  buPad : BitVec 3
  /-- BU_NSYM: the number of symbols to emit when the root is a leaf (R32). -/
  buNsym : BitVec 32
  /-- ERR: the fault code, 0 when no fault is recorded (R33). -/
  err : BitVec 4
  /-- ERRINFO: the detail of the recorded fault (R33). -/
  errInfo : BitVec 16
  /-- PKO: every packed byte appended since power-on, oldest first (R34). -/
  pko : List Byte
  /-- SYO: every decoded symbol appended since power-on, oldest first (R34). -/
  syo : List Symbol
  /-- RSP: every response word appended since power-on, oldest first (R34). -/
  rsp : List ResponseWord
  /-- The finite list of command words the host supplies (R21); no command reads or writes it. -/
  program : List CommandWord
  /-- The position in that list, of no width (R21); no command reads or writes it. -/
  pc : Nat
  deriving DecidableEq, Repr

/-- The power-on state (R36, R220): every register 0, every table entry at its reset value, the channels empty, and no command word
supplied yet. -/
def State.reset : State where
  hist := []
  ct := []
  tn := []
  acc := 0x00#8
  nbits := 0#3
  pad := 0#3
  cur := 0#9
  hold := 0x00#8
  holdv := false
  buPad := 0#3
  buNsym := 0#32
  err := 0#4
  errInfo := 0x0000#16
  pko := []
  syo := []
  rsp := []
  program := []
  pc := 0

/-- Why the model would stop with a fault. There is NO reason: every fault of the HBE is a next state (R196), every address a command
names exists (R51), and every 64-bit word has a stated behaviour (R80), so no meaning raises one. An empty type says it: safe. -/
inductive Fault
  deriving DecidableEq, Repr

/-- Why an instruction would have no meaning. -/
inductive Refusal where
  /-- Raised by an arm of `exec` whose instruction has no meaning yet, with its mnemonic; no arm raises it now. Safe: nothing is claimed
  of a run that stops so. -/
  | notModelled (mnemonic : String)
  deriving DecidableEq, Repr

/-- What a step answers. -/
abbrev Answer := Host.Outcome State Fault Refusal

end Sys2Proof.Machine
end

