-- ==== Sys2Proof/Machine/Flags.lean ====
section
/-!
DEFINITION. The predicates of the state that condition behaviour. The HBE has no condition codes (R35); its one flag that is not a
field is the fault flag, the predicate ERR ≠ 0.
-/

namespace Sys2Proof.Machine

/-- The fault flag: ERR ≠ 0 (R35). -/
def faulted (s : State) : Bool := s.err != 0#4

/-- The level output `fault_o` toward the host, equal to the fault flag (R201, R230). -/
def faultOutput (s : State) : BitVec 1 := BitVec.ofBool (faulted s)

/-- R232: a clean end state has no fault, no unflushed bits and no unwalked byte. -/
def clean (s : State) : Bool := !faulted s && s.nbits == 0#3 && !s.holdv

end Sys2Proof.Machine
end

