-- ==== Sys2Proof/Machine/Operands.lean ====
section
/-!
DEFINITION. Operand forms: how fields become bit sequences, table entries, fault details and response words. A bit sequence (R8) is a
list of bits, the first bit first.
-/

namespace Sys2Proof.Machine

/-! ### Bit sequences -/

/-- R75: the code chunk of `n` bits carried right-aligned in `bits`, `chunk[i] = bits[n-1-i]`. -/
def chunkBits (n : BitVec 8) (bits : BitVec 32) : List Bool :=
  (List.range n.toNat).map fun i => bits.getLsbD (n.toNat - 1 - i)

/-- R52: the bits of a payload byte in the order they are packed and walked, bit 7 first, bit 0 last. -/
def byteBits (b : Byte) : List Bool :=
  (List.range 8).map fun i => b.getLsbD (7 - i)

/-- R153: the bits of the last payload byte that are walked, bit 7 down to bit `pad`. -/
def lastByteBits (pad : BitVec 3) (b : Byte) : List Bool := (byteBits b).take (8 - pad.toNat)

/-- The number whose bit `i` is element `i` of the sequence. -/
def fieldValue : List Bool → Nat
  | [] => 0
  | b :: bs => b.toNat + 2 * fieldValue bs

/-! ### Code table entries (R23) -/

/-- The entry of a symbol with no code: `{valid = 0, len = 0, code = ""}` (R36, R110). -/
def noCode : CodeEntry := { valid := false, len := 0#8, code := 0#255 }

/-- The entry `{valid = 1, len = len(c), code = c}` of a code of at most 255 bits. -/
def codeEntry (c : List Bool) : CodeEntry :=
  { valid := true, len := BitVec.ofNat 8 c.length, code := BitVec.ofNat 255 (fieldValue c) }

/-- The code of an entry: the sequence `code[0]` to `code[len-1]`. -/
def codeBits (e : CodeEntry) : List Bool :=
  (List.range e.len.toNat).map fun i => e.code.getLsbD i

/-! ### Tree nodes (R29) -/

/-- An entry that has not been written: `valid = 0`, all other fields 0 (R36, R140). -/
def noNode : TreeNode :=
  { valid := false, leaf := false, lp := false, rp := false, left := 0#9, right := 0#9, sym := 0#8 }

/-- R155: whether the child that a payload bit selects is present (0 left, 1 right). -/
def childPresent (n : TreeNode) (bit : Bool) : Bool := if bit then n.rp else n.lp

/-- R155: the index of the child that a payload bit selects (0 left, 1 right). -/
def childIndex (n : TreeNode) (bit : Bool) : NodeIndex := if bit then n.right else n.left

/-! ### Fault details (R192) and response words (R81) -/

/-- `zext_16` of a symbol or of an opcode byte (codes 3, 5 and 6). -/
def byteInfo (b : BitVec 8) : BitVec 16 := b.setWidth 16

/-- `{sub, 0b000, idx}` (code 4). -/
def payloadInfo (sub : BitVec 4) (idx : NodeIndex) : BitVec 16 := sub ++ 0#3 ++ idx

/-- `{sub, 0b0000, s}` (code 7). -/
def tableInfo (sub : BitVec 4) (s : Symbol) : BitVec 16 := sub ++ 0#4 ++ s

/-- The word `RD_STATUS` answers: `{ERRINFO[15:0], 0x00, 0b0000, ERR[3:0]}`. -/
def statusWord (errInfo : BitVec 16) (err : BitVec 4) : ResponseWord := errInfo ++ 0x00#8 ++ 0#4 ++ err

/-- The word `BP_RDPAD` answers: `zext_32(PAD)`. -/
def padWord (pad : BitVec 3) : ResponseWord := pad.setWidth 32

end Sys2Proof.Machine
end

