-- ==== Sys2Proof/Machine/Ops.lean ====
section
/-!
DEFINITION. The named operations over the table memories, the registers and the channels: table reads and writes (R9, R50, R55), fault
entry (R196), the return from the fault state by reset (R199, R181), the discard check (R197), the bit buffer's step (R121) and the walk
step (R155).
-/

namespace Sys2Proof.Machine

/-! ### Table memories -/

/-- The entry at an index; an unlisted index holds `d`. -/
def Table.read {α : Type} (d : α) : Table α → Nat → α
  | [], _ => d
  | (j, v) :: m, k => if j = k then v else Table.read d m k

/-- Put an entry in front of the first one with a greater index. -/
def Table.insert {α : Type} (k : Nat) (v : α) : Table α → Table α
  | [] => [(k, v)]
  | (j, u) :: m => if k < j then (k, v) :: (j, u) :: m else (j, u) :: Table.insert k v m

/-- Forget what is listed at an index. -/
def Table.erase {α : Type} (k : Nat) (m : Table α) : Table α := m.filter fun c => decide (c.1 ≠ k)

/-- Write one whole entry (R55). Writing what an unlisted index holds removes the entry, so that equal tables are equal lists. -/
def Table.write {α : Type} [DecidableEq α] (d : α) (m : Table α) (k : Nat) (v : α) : Table α :=
  if v = d then Table.erase k m else Table.insert k v (Table.erase k m)

/-- The indices are strictly rising and all at least `lo`. -/
def Table.rising {α : Type} : Nat → Table α → Bool
  | _, [] => true
  | lo, (j, _) :: m => decide (lo ≤ j) && Table.rising (j + 1) m

/-- The canonical form: indices strictly rising and below `size`, no entry equal to what an unlisted index holds. -/
def Table.wf {α : Type} [DecidableEq α] (d : α) (size : Nat) (m : Table α) : Bool :=
  Table.rising 0 m && m.all fun c => decide (c.1 < size) && decide (c.2 ≠ d)

/-- All three memories have the canonical form. -/
def Memory.wf (s : State) : Bool :=
  Table.wf 0#32 Config.nsyms s.hist && Table.wf noCode Config.nsyms s.ct && Table.wf noNode Config.nnodes s.tn

/-- `HIST[sym]`; the reset count is 0 (R36). -/
def State.histRead (s : State) (sym : Symbol) : Count := Table.read 0#32 s.hist sym.toNat

/-- `HIST[sym] <- v`. -/
def State.histWrite (s : State) (sym : Symbol) (v : Count) : State :=
  { s with hist := Table.write 0#32 s.hist sym.toNat v }

/-- `CT[sym]`; the reset entry has no code (R36). -/
def State.ctRead (s : State) (sym : Symbol) : CodeEntry := Table.read noCode s.ct sym.toNat

/-- `CT[sym] <- e`. -/
def State.ctWrite (s : State) (sym : Symbol) (e : CodeEntry) : State :=
  { s with ct := Table.write noCode s.ct sym.toNat e }

/-- `NODE[i]`; the reset entry is not valid (R36). -/
def State.nodeRead (s : State) (i : NodeIndex) : TreeNode := Table.read noNode s.tn i.toNat

/-- `NODE[i] <- n`. -/
def State.nodeWrite (s : State) (i : NodeIndex) (n : TreeNode) : State :=
  { s with tn := Table.write noNode s.tn i.toNat n }

/-- Every entry of HIST to its reset value (R101). -/
def State.histClear (s : State) : State := { s with hist := [] }

/-- Every entry of CT to its reset value (R110). -/
def State.ctClear (s : State) : State := { s with ct := [] }

/-- Every entry of TN to its reset value (R140). -/
def State.tnClear (s : State) : State := { s with tn := [] }

/-! ### Channels (R34) -/

/-- `emit PKO(b)`. -/
def State.emitPko (s : State) (b : Byte) : State := { s with pko := s.pko ++ [b] }

/-- `emit SYO(c)`. -/
def State.emitSyo (s : State) (c : Symbol) : State := { s with syo := s.syo ++ [c] }

/-- `repeat n times: emit SYO(c)` (R153). -/
def State.emitSyoTimes (s : State) (n : Nat) (c : Symbol) : State := { s with syo := s.syo ++ List.replicate n c }

/-- `emit RSP(w)`. -/
def State.emitRsp (s : State) (w : ResponseWord) : State := { s with rsp := s.rsp ++ [w] }

/-! ### Fault entry, and the return from the fault state -/

/-- The pseudocode of a command so far: `ok` goes on from a state, `error` has ended the command by a `raise` in a state (R9). -/
abbrev Flow := Except State State

/-- The state a command's pseudocode leaves, whether it ran to its end or was ended by a `raise`. -/
def Flow.state : Flow → State
  | .ok s => s
  | .error s => s

/-- The value of ERR for a fault (R191). -/
def faultCode : FaultName → BitVec 4
  | .emptyInput => 1#4
  | .corruptHeader => 2#4
  | .unknownSymbol => 3#4
  | .corruptPayload => 4#4
  | .countOverflow => 5#4
  | .illegalCommand => 6#4
  | .codeTable => 7#4

/-- Fault entry (R196): ERR and ERRINFO are written and nothing else is saved or changed. -/
def State.enterFault (s : State) (f : FaultName) (info : BitVec 16) : State :=
  { s with err := faultCode f, errInfo := info }

/-- `raise f(info)`: fault entry, and the command ends. -/
def raise (f : FaultName) (info : BitVec 16) (s : State) : Flow := .error (s.enterFault f info)

/-- The return from the fault state, which is reset only (R199): every register and memory to its value of R36, the channels and the
host's list of words left alone (R181). -/
def State.resetRegisters (s : State) : State :=
  { State.reset with pko := s.pko, syo := s.syo, rsp := s.rsp, program := s.program, pc := s.pc }

/-- The power-on reset by `rst_n` (R220), an event from outside that no command word causes: as the `RESET` command, and the three
channels start empty. The host's list of words is not the HBE's and stays. -/
def State.powerOnReset (s : State) : State := { State.reset with program := s.program, pc := s.pc }

/-- Run a command's pseudocode whatever ERR is: for `NOP`, `RESET` and `RD_STATUS` (R180 to R182). -/
def runAlways (body : State → Flow) (s : State) : Answer := .next (Flow.state (body s))

/-- The discard check (R197), then a command's pseudocode: with ERR ≠ 0 the command does nothing. -/
def runChecked (body : State → Flow) (s : State) : Answer :=
  if faulted s then .next s else .next (Flow.state (body s))

/-! ### The bit buffer (R121) -/

/-- `v[i] <- b`, one bit of a byte. -/
def writeBit (v : BitVec 8) (i : Nat) (b : Bool) : BitVec 8 :=
  (v &&& ~~~(1#8 <<< i)) ||| ((BitVec.ofBool b).setWidth 8 <<< i)

/-- One turn of the loop of R121: put a code bit into `ACC[7 - NBITS]` and count it; on the eighth bit emit ACC and empty the buffer.
The sum `NBITS + 1` is taken in 4 bits (R183), here as a natural number. -/
def pushBit (s : State) (bit : Bool) : State :=
  let acc := writeBit s.acc (7 - s.nbits.toNat) bit
  if s.nbits.toNat + 1 = 8 then
    { s.emitPko acc with acc := 0x00#8, nbits := 0#3 }
  else
    { s with acc := acc, nbits := BitVec.ofNat 3 (s.nbits.toNat + 1) }

/-- The loop of R121 over the code bits, first bit first. -/
def pushBits (s : State) (bits : List Bool) : State := bits.foldl pushBit s

/-! ### The tree walk (R155) -/

/-- `walk(bit)`: consume one payload bit. The checks stand in the order of R155; a step that faults changes nothing else. -/
def walk (bit : Bool) (s : State) : Flow :=
  let n := s.nodeRead s.cur
  if !n.valid then raise .corruptPayload (payloadInfo 1#4 s.cur) s
  else if n.leaf then raise .corruptPayload (payloadInfo 2#4 s.cur) s
  else if !childPresent n bit then raise .corruptPayload (payloadInfo 3#4 s.cur) s
  else
    let c := s.nodeRead (childIndex n bit)
    if !c.valid then raise .corruptPayload (payloadInfo 1#4 (childIndex n bit)) s
    else if c.leaf then .ok { s.emitSyo c.sym with cur := Config.root }
    else .ok { s with cur := childIndex n bit }

/-- `walk` of each bit in turn; a step that faults ends the command, and the earlier steps' effects stay (R198). -/
def walkBits : List Bool → State → Flow
  | [], s => .ok s
  | bit :: bits, s =>
    match walk bit s with
    | .ok s' => walkBits bits s'
    | .error t => .error t

end Sys2Proof.Machine
end

