-- ==== Sys2Proof/Machine/CodeTable.lean ====
section
/-!
DEFINITION. The code table's commands CT_CLR, CT_SET, CT_APP (`spec/41_code_table.md`).
-/

namespace Sys2Proof.Machine

/-- `CT_CLR` (R110): every entry without a code. -/
def execCtClr (s : State) : Answer := runChecked (fun s => .ok s.ctClear) s

/-- `CT_SET sym, chunk` (R111): the entry's code is the chunk, whatever it was. -/
def execCtSet (sym : Symbol) (n : BitVec 8) (bits : BitVec 32) (s : State) : Answer :=
  runChecked (fun s => .ok (s.ctWrite sym (codeEntry (chunkBits n bits)))) s

/-- `CT_APP sym, chunk` (R112): the chunk after the code; sub-cause 1 with no code, sub-cause 2 past MAXLEN bits. The sum of the lengths
does not wrap (R183). -/
def execCtApp (sym : Symbol) (n : BitVec 8) (bits : BitVec 32) (s : State) : Answer :=
  runChecked (fun s =>
    let e := s.ctRead sym
    if !e.valid then raise .codeTable (tableInfo 1#4 sym) s
    else if e.len.toNat + n.toNat > Config.maxLen then raise .codeTable (tableInfo 2#4 sym) s
    else .ok (s.ctWrite sym (codeEntry (codeBits e ++ chunkBits n bits)))) s

end Sys2Proof.Machine
end

