-- ==== Sys2Proof/Machine/Frequency.lean ====
section
/-!
DEFINITION. The frequency accumulator's commands FA_CLR, FA_PUSH, FA_RD (`spec/40_frequency_accumulator.md`).
-/

namespace Sys2Proof.Machine

/-- `FA_CLR` (R101): every count 0. -/
def execFaClr (s : State) : Answer := runChecked (fun s => .ok s.histClear) s

/-- `FA_PUSH sym` (R102): one more; a full count faults before the write. -/
def execFaPush (sym : Symbol) (s : State) : Answer :=
  runChecked (fun s =>
    if s.histRead sym = Config.maxCount then raise .countOverflow (byteInfo sym) s
    else .ok (s.histWrite sym (s.histRead sym + 1#32))) s

/-- `FA_RD sym` (R103): the count as a response word. -/
def execFaRd (sym : Symbol) (s : State) : Answer := runChecked (fun s => .ok (s.emitRsp (s.histRead sym))) s

end Sys2Proof.Machine
end

