-- ==== Sys2Proof/Machine/Packer.lean ====
section
/-!
DEFINITION. The bit packer's commands BP_PUSH, BP_END, BP_RDPAD (`spec/42_bit_packer.md`).
-/

namespace Sys2Proof.Machine

/-- `BP_PUSH sym` (R121): the symbol's code bits into the bit buffer, each completed byte to PKO; a symbol with no code faults first. -/
def execBpPush (sym : Symbol) (s : State) : Answer :=
  runChecked (fun s =>
    let e := s.ctRead sym
    if !e.valid then raise .unknownSymbol (byteInfo sym) s
    else .ok (pushBits s (codeBits e))) s

/-- `BP_END` (R122): flush the pending bits as one byte padded with zero bits, and record the padding count. -/
def execBpEnd (s : State) : Answer :=
  runChecked (fun s =>
    if s.nbits.toNat > 0 then
      .ok { s.emitPko s.acc with pad := BitVec.ofNat 3 (8 - s.nbits.toNat), acc := 0x00#8, nbits := 0#3 }
    else .ok { s with pad := 0#3 }) s

/-- `BP_RDPAD` (R123): the padding count as a response word. -/
def execBpRdpad (s : State) : Answer := runChecked (fun s => .ok (s.emitRsp (padWord s.pad))) s

end Sys2Proof.Machine
end

