-- ==== Sys2Proof/Machine/System.lean ====
section
/-!
DEFINITION. The system commands NOP, RESET, RD_STATUS (`spec/45_system_commands.md`). They hold for ERR = 0 and ERR ≠ 0 alike (R197).
-/

namespace Sys2Proof.Machine

/-- `NOP` (R180): no state changes and nothing is appended. -/
def execNop (s : State) : Answer := runAlways (fun s => .ok s) s

/-- `RESET` (R181): every register and memory to its reset value; the channels stay. -/
def execReset (s : State) : Answer := runAlways (fun s => .ok s.resetRegisters) s

/-- `RD_STATUS` (R182): the fault registers as one response word. -/
def execRdStatus (s : State) : Answer := runAlways (fun s => .ok (s.emitRsp (statusWord s.errInfo s.err))) s

end Sys2Proof.Machine
end

