-- ==== Sys2Proof/Machine/TreeMemory.lean ====
section
/-!
DEFINITION. The tree memory's commands TN_CLR, TN_WR (`spec/43_tree_memory.md`).
-/

namespace Sys2Proof.Machine

/-- `TN_CLR` (R140): every node invalid. -/
def execTnClr (s : State) : Answer := runChecked (fun s => .ok s.tnClear) s

/-- `TN_WR idx, node` (R141): the whole entry is replaced and is valid. -/
def execTnWr (idx : NodeIndex) (leaf lp rp : Bool) (left right : NodeIndex) (sym : Symbol) (s : State) : Answer :=
  runChecked (fun s =>
    .ok (s.nodeWrite idx
      { valid := true, leaf := leaf, lp := lp, rp := rp, left := left, right := right, sym := sym })) s

end Sys2Proof.Machine
end

