-- ==== Sys2Proof/Machine/Unpacker.lean ====
section
/-!
DEFINITION. The bit unpacker's commands BU_CFG, BU_BYTE, BU_END (`spec/44_bit_unpacker.md`).
-/

namespace Sys2Proof.Machine

/-- `BU_CFG pad, nsym` (R151). -/
def execBuCfg (pad : BitVec 3) (nsym : BitVec 32) (s : State) : Answer :=
  runChecked (fun s => .ok { s with buPad := pad, buNsym := nsym }) s

/-- `BU_BYTE b` (R152): walk all bits of the byte held so far, then hold `b`. -/
def execBuByte (b : Byte) (s : State) : Answer :=
  runChecked (fun s =>
    (if s.holdv then walkBits (byteBits s.hold) s else .ok s).bind fun s =>
      .ok { s with hold := b, holdv := true }) s

/-- The end of a run with a held byte (R153): the bits above the padding are walked, the byte is dropped, and the walk must have ended
at the root. -/
def endPayload (s : State) : Flow :=
  (walkBits (lastByteBits s.buPad s.hold) s).bind fun s =>
    let s := { s with hold := 0x00#8, holdv := false }
    if s.cur ≠ Config.root then raise .corruptPayload (payloadInfo 4#4 s.cur) s else .ok s

/-- The end of a run with no payload (R153): no padding may be set, and a leaf root emits its symbol BU_NSYM times. -/
def endEmpty (s : State) : Flow :=
  if s.buPad ≠ 0#3 then raise .corruptPayload (payloadInfo 5#4 0#9) s
  else
    let r := s.nodeRead Config.root
    if !r.valid then raise .corruptPayload (payloadInfo 1#4 Config.root) s
    else if r.leaf then .ok (s.emitSyoTimes s.buNsym.toNat r.sym)
    else .ok s

/-- `BU_END` (R153). -/
def execBuEnd (s : State) : Answer := runChecked (fun s => if s.holdv then endPayload s else endEmpty s) s

end Sys2Proof.Machine
end

