-- ==== Sys2Proof/Machine/Dispatch.lean ====
section
/-!
DEFINITION. One arm per command: the meaning each constructor of Instr has.
-/

namespace Sys2Proof.Machine

def exec (i : Instr) (s : State) : Host.Outcome State Fault Refusal :=
  match i with
  -- system
  | .nop => Sys2Proof.Machine.execNop s
  | .reset => Sys2Proof.Machine.execReset s
  | .rdStatus => Sys2Proof.Machine.execRdStatus s
  -- frequency accumulator
  | .faClr => Sys2Proof.Machine.execFaClr s
  | .faPush sym => Sys2Proof.Machine.execFaPush sym s
  | .faRd sym => Sys2Proof.Machine.execFaRd sym s
  -- code table
  | .ctClr => Sys2Proof.Machine.execCtClr s
  | .ctSet sym n bits => Sys2Proof.Machine.execCtSet sym n bits s
  | .ctApp sym n bits => Sys2Proof.Machine.execCtApp sym n bits s
  -- bit packer
  | .bpPush sym => Sys2Proof.Machine.execBpPush sym s
  | .bpEnd => Sys2Proof.Machine.execBpEnd s
  | .bpRdpad => Sys2Proof.Machine.execBpRdpad s
  -- tree memory
  | .tnClr => Sys2Proof.Machine.execTnClr s
  | .tnWr idx leaf lp rp left right sym => Sys2Proof.Machine.execTnWr idx leaf lp rp left right sym s
  -- bit unpacker
  | .buCfg pad nsym => Sys2Proof.Machine.execBuCfg pad nsym s
  | .buByte b => Sys2Proof.Machine.execBuByte b s
  | .buEnd => Sys2Proof.Machine.execBuEnd s

end Sys2Proof.Machine
end

