-- ==== Sys2Proof/Machine/Fetch.lean ====
section
/-!
DEFINITION. Taking a command word (`spec/10_state.md` R21), what an illegal word does (`spec/60_exceptions.md` R193), and how the host
supplies words. The HBE fetches nothing from a memory: the words stand in the host's list, at the position `pc`.
-/

namespace Sys2Proof.Machine

/-- The next command word, none when the host's list is exhausted (R21, R232). -/
def fetchWord (s : State) : Option CommandWord := s.program[s.pc]?

/-- The position moves on by exactly one per word, whatever the command does (R21). -/
def State.advance (s : State) : State := { s with pc := s.pc + 1 }

/-- An illegal word (R193): discarded when ERR ≠ 0, else `IllegalCommand` with the opcode byte as its detail. -/
def execIllegal (w : CommandWord) (s : State) : Answer :=
  runChecked (fun s => raise .illegalCommand (byteInfo (opField w)) s) s

/-- Execute one word: the command it decodes to, or the illegal word's effect (R79, R80). -/
def execWord (w : CommandWord) (s : State) : Answer :=
  match decode w with
  | .ok i => exec i s
  | .error _ => execIllegal w s

/-- With no word to execute the HBE does nothing and keeps all state (R208). -/
def idle (s : State) : Answer := .next s

/-- The host supplies more words at the end of its list (R5, R231). -/
def State.supply (s : State) (ws : List CommandWord) : State := { s with program := s.program ++ ws }

/-- The host's list with the word at the position `pc` put there, and zero words (`NOP`) in positions before it that the list lacks. -/
def placeWord (program : List CommandWord) (pc : Nat) (w : CommandWord) : List CommandWord :=
  program.take pc ++ List.replicate (pc - program.length) 0#64 ++ w :: program.drop (pc + 1)

end Sys2Proof.Machine
end

