-- ==== Sys2Proof/Machine/Step.lean ====
section
/-!
DEFINITION. One step: take the next command word and execute it to completion (`spec/00_scope.md` R5, `spec/10_state.md` R21).
-/

namespace Sys2Proof.Machine

/-- One step of the machine: with no word left it idles (R208), else the position moves on (R21) and the word is executed. -/
def step (s : State) : Host.Outcome State Fault Refusal :=
  match fetchWord s with
  | none => idle s
  | some w => execWord w s.advance

/-- The state with the command word of a table row placed where `step` takes its next word, nothing else changed. -/
def State.withFetchWord (s : State) (nbits w : Nat) : State :=
  { s with program := placeWord s.program s.pc (tableWord nbits w) }

end Sys2Proof.Machine
end

