-- ==== Sys2Proof/Machine/Pseudo.lean ====
section
/-!
DEFINITION. The operand forms of the spec's assembler notation (`spec/30_encoding.md` R82) and the expansions of its pseudo-commands
(R83). A bit string is a list of bits, the first bit first.
-/

namespace Sys2Proof.Machine

/-- The integer value of a bit sequence, first bit most significant (R8). -/
def bitsValue (c : List Bool) : Nat := c.foldl (fun v b => 2 * v + b.toNat) 0

/-- `CT_SET s, "bitstring"` (R82): `n` is the string's length, `bits` its value. -/
def ctSetString (s : Symbol) (c : List Bool) : Instr := .ctSet s (BitVec.ofNat 8 c.length) (BitVec.ofNat 32 (bitsValue c))

/-- `CT_APP s, "bitstring"` (R82). -/
def ctAppString (s : Symbol) (c : List Bool) : Instr := .ctApp s (BitVec.ofNat 8 c.length) (BitVec.ofNat 32 (bitsValue c))

/-- `TN_WR idx, LEAF s` (R82). -/
def tnWrLeaf (idx : NodeIndex) (s : Symbol) : Instr := .tnWr idx true false false 0#9 0#9 s

/-- `TN_WR idx, INT l, r` (R82); an absent child, `-`, is `none` and gives a 0 index field. -/
def tnWrInt (idx : NodeIndex) (l r : Option NodeIndex) : Instr :=
  .tnWr idx false l.isSome r.isSome (l.getD 0#9) (r.getD 0#9) 0#8

/-- The `CT_APP` commands for the rest of a bit string, CHUNK_W bits each, at most `k` of them. -/
def ctAppChunks (s : Symbol) : Nat → List Bool → List Instr
  | 0, _ => []
  | k + 1, c => if c.isEmpty then [] else ctAppString s (c.take Config.chunkW) :: ctAppChunks s k (c.drop Config.chunkW)

/-- `CT_CODE s, "bitstring"` (R83): one `CT_SET` with the first 32 bits, then `CT_APP`s until the string is used up. -/
def ctCode (s : Symbol) (c : List Bool) : List Instr :=
  ctSetString s (c.take Config.chunkW) :: ctAppChunks s c.length (c.drop Config.chunkW)

/-- `FA_STR "text"` (R83). -/
def faStr (text : List Symbol) : List Instr := text.map .faPush

/-- `BP_STR "text"` (R83). -/
def bpStr (text : List Symbol) : List Instr := text.map .bpPush

/-- `BU_BYTES b0, b1, ...` (R83). -/
def buBytes (bytes : List Byte) : List Instr := bytes.map .buByte

/-- `FA_DUMP` (R83): `FA_RD 0` to `FA_RD 255`. -/
def faDump : List Instr := (List.range Config.nsyms).map fun s => .faRd (BitVec.ofNat 8 s)

end Sys2Proof.Machine
end

