-- ==== Sys2Proof/Safety.lean ====
section
/-!
DEFINITION. The terms in which claims about the HBE are stated: the invariant of its states, runs of commands, the columns of the access
table (`spec/10_state.md` R39), the list of illegal words (`spec/30_encoding.md` R80), bit sequences cut into bytes (`spec/42_bit_packer.md`
R124), the walks of a payload (`spec/44_bit_unpacker.md` R155, R156), and the host's trees (`spec/00_scope.md` R13, R15).
-/

namespace Sys2Proof.Machine

/-! ### The invariant -/

/-- What a CT entry always looks like (R23): a symbol with no code holds the reset entry, and the field is 0 at and above `len`. -/
def CodeEntryOk (e : CodeEntry) : Prop := (e.valid = false → e = noCode) ∧ e.code.toNat < 2 ^ e.len.toNat

/-- What a TN entry always looks like (R29, R76): fields that the flags make meaningless are 0, a leaf has no child. -/
def NodeOk (n : TreeNode) : Prop :=
  (n.valid = false → n = noNode) ∧ (n.leaf = true → n.lp = false ∧ n.rp = false) ∧ (n.leaf = false → n.sym = 0#8) ∧
    (n.lp = false → n.left = 0#9) ∧ (n.rp = false → n.right = 0#9)

/-- R27: below the pending bits ACC is 0, that is `ACC[7-NBITS:0] = 0`. -/
def BufferOk (s : State) : Prop := s.acc.toNat % 2 ^ (8 - s.nbits.toNat) = 0

/-- ERR and ERRINFO hold one of the pairs of R191 and R192 (I24): nothing recorded, or a fault that the HBE raises with its detail. -/
def FaultRecordOk (err : BitVec 4) (info : BitVec 16) : Prop :=
  (err = 0#4 ∧ info = 0#16) ∨
  (∃ b : BitVec 8, (err = 3#4 ∨ err = 5#4 ∨ err = 6#4) ∧ info = byteInfo b) ∨
  (∃ (sub : BitVec 4) (idx : NodeIndex), err = 4#4 ∧ 1 ≤ sub.toNat ∧ sub.toNat ≤ 5 ∧ info = payloadInfo sub idx) ∨
  (∃ (sub : BitVec 4) (b : Symbol), err = 7#4 ∧ 1 ≤ sub.toNat ∧ sub.toNat ≤ 2 ∧ info = tableInfo sub b)

/-- The invariant of the HBE's states. -/
structure Invariant (s : State) : Prop where
  /-- The three tables have the canonical form, which is the model's own (log entry 3), with indices inside their spaces (R50). -/
  memory : Memory.wf s = true
  /-- Every CT entry is as R23 says. -/
  code : ∀ sym, CodeEntryOk (s.ctRead sym)
  /-- Every TN entry is as R29 says. -/
  node : ∀ i, NodeOk (s.nodeRead i)
  /-- The bit buffer invariant (R27). -/
  buffer : BufferOk s
  /-- With no byte held HOLD is 0 (R31). -/
  hold : s.holdv = false → s.hold = 0#8
  /-- The walker invariant (R37). -/
  walker : s.err = 0#4 → s.holdv = false → s.cur = Config.root
  /-- The fault registers (R33, R191, R192). -/
  record : FaultRecordOk s.err s.errInfo

/-! ### Runs -/

/-- The commands of a list, one after the other (R59); it stops at an answer that is no next state. -/
def execAll : List Instr → State → Answer
  | [], s => .next s
  | i :: is, s =>
    match exec i s with
    | .next t => execAll is t
    | .fault r => .fault r
    | .refused r => .refused r

/-- How many `FA_PUSH` commands for which `p` holds run without a fault in a list of commands from a state (R104). -/
def countedPushes (p : Symbol → Bool) : List Instr → State → Nat
  | [], _ => 0
  | i :: is, s =>
    match exec i s with
    | .next t =>
      (match i with
        | .faPush sym => if p sym && !faulted t then 1 else 0
        | _ => 0) + countedPushes p is t
    | .fault _ => 0
    | .refused _ => 0

/-- The symbols that a list of commands pushes to the frequency accumulator, in order. -/
def countedSymbols (is : List Instr) : List Symbol :=
  is.filterMap fun i => match i with
    | .faPush sym => some sym
    | _ => none

/-- The symbols that a list of commands pushes to the bit packer, in order. -/
def packedSymbols (is : List Instr) : List Symbol :=
  is.filterMap fun i => match i with
    | .bpPush sym => some sym
    | _ => none

/-- The payload bytes that a list of commands gives the bit unpacker, in order. -/
def payloadBytes (is : List Instr) : List Byte :=
  is.filterMap fun i => match i with
    | .buByte b => some b
    | _ => none

/-- The commands that may stand in a packing run before its `BP_END` with CT unchanged (R124, R126): pushes, and the commands that write
neither CT nor the bit buffer. -/
def inPackingRun : Instr → Bool
  | .reset | .ctClr | .ctSet _ _ _ | .ctApp _ _ _ | .bpEnd => false
  | .nop | .rdStatus | .faClr | .faPush _ | .faRd _ | .bpPush _ | .bpRdpad => true
  | .tnClr | .tnWr _ _ _ _ _ _ _ | .buCfg _ _ | .buByte _ | .buEnd => true

/-- The commands that may stand in an unpacking run before its `BU_END` with TN unchanged (R154, R156): payload bytes, and the commands
that write neither TN nor the walker. -/
def inUnpackingRun : Instr → Bool
  | .reset | .tnClr | .tnWr _ _ _ _ _ _ _ | .buEnd => false
  | .nop | .rdStatus | .faClr | .faPush _ | .faRd _ | .buCfg _ _ | .buByte _ => true
  | .ctClr | .ctSet _ _ _ | .ctApp _ _ _ | .bpPush _ | .bpEnd | .bpRdpad => true

/-- The sum of all counts (R104). -/
def countSum (s : State) : Nat := ((List.range Config.nsyms).map fun k => (s.histRead (BitVec.ofNat 8 k)).toNat).sum

/-! ### The access table (R39) -/

/-- The columns of R39. -/
inductive Column where
  /-- HIST. -/
  | hist
  /-- CT. -/
  | ct
  /-- ACC and NBITS. -/
  | bitBuffer
  /-- PAD. -/
  | pad
  /-- TN. -/
  | tn
  /-- CUR, HOLD and HOLDV. -/
  | walker
  /-- BU_PAD and BU_NSYM. -/
  | config
  /-- The channel PKO. -/
  | pko
  /-- The channel SYO. -/
  | syo
  /-- The channel RSP. -/
  | rsp
  deriving DecidableEq, Repr

/-- The state of a column is the same in two states. -/
def Column.same : Column → State → State → Prop
  | .hist, s, t => t.hist = s.hist
  | .ct, s, t => t.ct = s.ct
  | .bitBuffer, s, t => t.acc = s.acc ∧ t.nbits = s.nbits
  | .pad, s, t => t.pad = s.pad
  | .tn, s, t => t.tn = s.tn
  | .walker, s, t => t.cur = s.cur ∧ t.hold = s.hold ∧ t.holdv = s.holdv
  | .config, s, t => t.buPad = s.buPad ∧ t.buNsym = s.buNsym
  | .pko, s, t => t.pko = s.pko
  | .syo, s, t => t.syo = s.syo
  | .rsp, s, t => t.rsp = s.rsp

/-- The columns marked `w` in a command's row of R39. -/
def writtenColumns : Instr → List Column
  | .nop => []
  | .reset => [.hist, .ct, .bitBuffer, .pad, .tn, .walker, .config]
  | .rdStatus => [.rsp]
  | .faClr => [.hist]
  | .faPush _ => [.hist]
  | .faRd _ => [.rsp]
  | .ctClr => [.ct]
  | .ctSet _ _ _ => [.ct]
  | .ctApp _ _ _ => [.ct]
  | .bpPush _ => [.bitBuffer, .pko]
  | .bpEnd => [.bitBuffer, .pad, .pko]
  | .bpRdpad => [.rsp]
  | .tnClr => [.tn]
  | .tnWr _ _ _ _ _ _ _ => [.tn]
  | .buCfg _ _ => [.config]
  | .buByte _ => [.walker, .syo]
  | .buEnd => [.walker, .syo]

/-- The unit a command belongs to, by the high nibble of its opcode (R78); CT belongs to the packer, TN to the unpacker (R1). -/
inductive HbeUnit where
  /-- NOP, RESET, RD_STATUS. -/
  | system
  /-- The frequency accumulator. -/
  | fa
  /-- The bit packer with its code table. -/
  | bp
  /-- The bit unpacker with its tree memory. -/
  | bu
  deriving DecidableEq, Repr

/-- A command's unit. -/
def unitOf : Instr → HbeUnit
  | .nop | .reset | .rdStatus => .system
  | .faClr | .faPush _ | .faRd _ => .fa
  | .ctClr | .ctSet _ _ _ | .ctApp _ _ _ | .bpPush _ | .bpEnd | .bpRdpad => .bp
  | .tnClr | .tnWr _ _ _ _ _ _ _ | .buCfg _ _ | .buByte _ | .buEnd => .bu

/-- The state with one unit's own registers, memories and channel taken from another state (R20, R233). -/
def overlay : HbeUnit → State → State → State
  | .system, _, s => s
  | .fa, o, s => { s with hist := o.hist }
  | .bp, o, s => { s with ct := o.ct, acc := o.acc, nbits := o.nbits, pad := o.pad, pko := o.pko }
  | .bu, o, s =>
    { s with tn := o.tn, cur := o.cur, hold := o.hold, holdv := o.holdv, buPad := o.buPad, buNsym := o.buNsym, syo := o.syo }

/-- Change the next state of an answer. -/
def mapAnswer (f : State → State) : Answer → Answer
  | .next t => .next (f t)
  | .fault r => .fault r
  | .refused r => .refused r

/-! ### Illegal words -/

/-- The 17 opcodes of R80 (a). -/
def assignedOpcodes : List Nat :=
  [0x00, 0x01, 0x02, 0x10, 0x11, 0x12, 0x20, 0x21, 0x22, 0x30, 0x31, 0x32, 0x40, 0x41, 0x50, 0x51, 0x52]

/-- The field `w[hi:lo]` as a number (R7). -/
def bitField (w : CommandWord) (hi lo : Nat) : Nat := w.toNat / 2 ^ lo % 2 ^ (hi + 1 - lo)

/-- The words that R80 lists as illegal, by the fields of R72 to R77 read as numbers. -/
def listedIllegal (w : CommandWord) : Prop :=
  let op := bitField w 63 56
  -- (a) an unassigned opcode
  op ∉ assignedOpcodes ∨
  -- (b) a reserved bit set: format Z, S, C, T, B
  (op ∈ [0x00, 0x01, 0x02, 0x10, 0x20, 0x31, 0x32, 0x40, 0x52] ∧ bitField w 55 0 ≠ 0) ∨
  (op ∈ [0x11, 0x12, 0x30, 0x51] ∧ bitField w 55 8 ≠ 0) ∨
  (op ∈ [0x21, 0x22] ∧ bitField w 39 32 ≠ 0) ∨
  (op = 0x41 ∧ (bitField w 52 52 ≠ 0 ∨ bitField w 15 8 ≠ 0)) ∨
  (op = 0x50 ∧ bitField w 55 40 ≠ 0) ∨
  -- (c) format C: n above 32, or a bit of bits[31:n]
  (op ∈ [0x21, 0x22] ∧ (32 < bitField w 47 40 ∨ bitField w 31 0 / 2 ^ bitField w 47 40 ≠ 0)) ∨
  -- (d) format T
  (op = 0x41 ∧ (511 < bitField w 51 40 ∨ 511 < bitField w 39 28 ∨ 511 < bitField w 27 16 ∨
    (bitField w 55 55 = 1 ∧ (bitField w 54 54 = 1 ∨ bitField w 53 53 = 1)) ∨
    (bitField w 55 55 = 0 ∧ bitField w 7 0 ≠ 0) ∨
    (bitField w 54 54 = 0 ∧ bitField w 39 28 ≠ 0) ∨
    (bitField w 53 53 = 0 ∧ bitField w 27 16 ≠ 0))) ∨
  -- (e) format B: pad above 7
  (op = 0x50 ∧ 7 < bitField w 39 32)

/-! ### Bit sequences cut into bytes -/

/-- The byte whose bits, bit 7 first, are the first eight of a sequence, a missing one being 0. -/
def packByte (l : List Bool) : Byte :=
  BitVec.ofNat 8 ((List.range 8).foldl (fun v i => 2 * v + (l.getD i false).toNat) 0)

/-- The complete groups of eight bits of a sequence, each as a byte with its first bit in bit 7 (R52, R124). -/
def fullBytes : List Bool → List Byte
  | b0 :: b1 :: b2 :: b3 :: b4 :: b5 :: b6 :: b7 :: rest => packByte [b0, b1, b2, b3, b4, b5, b6, b7] :: fullBytes rest
  | _ => []

/-- The bits after the last complete group of eight. -/
def leftover : List Bool → List Bool
  | _ :: _ :: _ :: _ :: _ :: _ :: _ :: _ :: rest => leftover rest
  | l => l

/-- The pending bits of the bit buffer, oldest first: `ACC[7]` down to `ACC[8-NBITS]` (R24). -/
def pendingBits (s : State) : List Bool := (byteBits s.acc).take s.nbits.toNat

/-- The padding count of a sequence of `len` bits (R124). -/
def paddingOf (len : Nat) : Nat := (8 - len % 8) % 8

/-- The bytes of a sequence followed by its padding zeros (R124). -/
def paddedBytes (l : List Bool) : List Byte := fullBytes (l ++ List.replicate (paddingOf l.length) false)

/-! ### Walks of a payload -/

/-- One bit takes the walker from a node to a child that is an internal node, or through a leaf back to the root (R155). -/
inductive WalkStep (node : NodeIndex → TreeNode) : NodeIndex → Bool → List Symbol → NodeIndex → Prop where
  /-- The child is an internal node: no symbol, the walker stands on the child. -/
  | inner (cur : NodeIndex) (bit : Bool) (child : NodeIndex)
      (here : (node cur).valid = true ∧ (node cur).leaf = false)
      (edge : if bit then (node cur).rp = true ∧ (node cur).right = child else (node cur).lp = true ∧ (node cur).left = child)
      (there : (node child).valid = true ∧ (node child).leaf = false) :
      WalkStep node cur bit [] child
  /-- The child is a leaf: its symbol, and back to the root. -/
  | leaf (cur : NodeIndex) (bit : Bool) (child : NodeIndex)
      (here : (node cur).valid = true ∧ (node cur).leaf = false)
      (edge : if bit then (node cur).rp = true ∧ (node cur).right = child else (node cur).lp = true ∧ (node cur).left = child)
      (there : (node child).valid = true ∧ (node child).leaf = true) :
      WalkStep node cur bit [(node child).sym] Config.root

/-- A sequence of bits takes the walker from one node to another and gives symbols (R156). -/
inductive Walks (node : NodeIndex → TreeNode) : NodeIndex → List Bool → List Symbol → NodeIndex → Prop where
  /-- No bit. -/
  | done (cur : NodeIndex) : Walks node cur [] [] cur
  /-- One bit, then the rest. -/
  | step (cur mid last : NodeIndex) (bit : Bool) (bits : List Bool) (out outs : List Symbol)
      (first : WalkStep node cur bit out mid) (rest : Walks node mid bits outs last) :
      Walks node cur (bit :: bits) (out ++ outs) last

/-- The sub-cause and the index with which a bit faults at a node (R155, R192): 1 with the node's own index when it was never written, 2
on a leaf, 3 with an absent child, 1 with the child's index when the child was never written. -/
def WalkFault (node : NodeIndex → TreeNode) (cur : NodeIndex) (bit : Bool) (sub : BitVec 4) (idx : NodeIndex) : Prop :=
  let n := node cur
  let present := if bit then n.rp else n.lp
  let child := if bit then n.right else n.left
  (n.valid = false ∧ sub = 1#4 ∧ idx = cur) ∨
  (n.valid = true ∧ n.leaf = true ∧ sub = 2#4 ∧ idx = cur) ∨
  (n.valid = true ∧ n.leaf = false ∧ present = false ∧ sub = 3#4 ∧ idx = cur) ∨
  (n.valid = true ∧ n.leaf = false ∧ present = true ∧ (node child).valid = false ∧ sub = 1#4 ∧ idx = child)

/-! ### The host's trees -/

/-- A Huffman tree as the document describes it (R13): a node is a leaf, or has exactly two children. Frequencies play no part in the HBE
(R29). -/
inductive HuffTree where
  /-- A leaf with its symbol. -/
  | leaf (sym : Symbol)
  /-- An internal node with its left and right child. -/
  | node (left right : HuffTree)
  deriving DecidableEq, Repr

/-- The leaf of a symbol stands at the end of a path from the root, 0 for left and 1 for right (R15). -/
inductive HuffTree.Path : HuffTree → List Bool → Symbol → Prop where
  /-- The root is the leaf. -/
  | here (sym : Symbol) : HuffTree.Path (.leaf sym) [] sym
  /-- The path goes left. -/
  | goLeft (l r : HuffTree) (p : List Bool) (sym : Symbol) (rest : HuffTree.Path l p sym) :
      HuffTree.Path (.node l r) (false :: p) sym
  /-- The path goes right. -/
  | goRight (l r : HuffTree) (p : List Bool) (sym : Symbol) (rest : HuffTree.Path r p sym) :
      HuffTree.Path (.node l r) (true :: p) sym

/-- TN holds a tree with its top node at an index: what a well-formed load of it (R142) leaves there. -/
def HuffTree.StoredAt (node : NodeIndex → TreeNode) : HuffTree → NodeIndex → Prop
  | .leaf sym, i => (node i).valid = true ∧ (node i).leaf = true ∧ (node i).sym = sym
  | .node l r, i =>
    ((node i).valid = true ∧ (node i).leaf = false ∧ (node i).lp = true ∧ (node i).rp = true) ∧
      HuffTree.StoredAt node l (node i).left ∧ HuffTree.StoredAt node r (node i).right

/-- CT holds for a symbol a code that is a path of the tree to a leaf of that symbol (R114). -/
def HuffTree.CodedIn (t : HuffTree) (s : State) (sym : Symbol) : Prop :=
  (s.ctRead sym).valid = true ∧ HuffTree.Path t (codeBits (s.ctRead sym)) sym

/-- The `TN_WR` commands of a tree numbered in preorder from an index on (R142), and the next free index. -/
def HuffTree.load : HuffTree → Nat → List Instr × Nat
  | .leaf sym, i => ([tnWrLeaf (BitVec.ofNat 9 i) sym], i + 1)
  | .node l r, i =>
    let left := HuffTree.load l (i + 1)
    let right := HuffTree.load r left.2
    (tnWrInt (BitVec.ofNat 9 i) (some (BitVec.ofNat 9 (i + 1))) (some (BitVec.ofNat 9 left.2)) :: (left.1 ++ right.1), right.2)

/-- The number of nodes of a tree. -/
def HuffTree.nodes : HuffTree → Nat
  | .leaf _ => 1
  | .node l r => 1 + HuffTree.nodes l + HuffTree.nodes r

end Sys2Proof.Machine
end

