-- ==== Sys2Proof/Certificates/Slice0/Obligations.lean ====
section
/-!
DEFINITION. What is claimed of the HBE model, one proposition a claim. Each docstring names the rule of spec/ it formalises.
-/

open Sys2Proof Sys2Proof.Machine

/-! ### Encoding -/

/-- R79: decoding the word of a command with legal operands gives that command, every operand at every value. -/
def Obligations.DecodeInvertsEncode : Prop := ∀ i : Instr, i.wellFormed = true → decode (encode i) = .ok i

/-- R79: a word that decodes has legal operands and is the one word of its command, so two words never decode to the same command. -/
def Obligations.EncodeInvertsDecode : Prop :=
  ∀ (w : CommandWord) (i : Instr), decode w = .ok i → i.wellFormed = true ∧ encode i = w

/-- R78: a word is a command only if it matches the command's row of the opcode map. -/
def Obligations.LegalWordMatchesItsTableRow : Prop :=
  ∀ (w : CommandWord) (i : Instr), decode w = .ok i → w &&& tableMask i = tableMatch i

/-- R80, R193: the words that do not decode are exactly the listed ones, 239 opcodes being unassigned; with ERR = 0 such a word raises
IllegalCommand with its opcode byte and changes nothing else, with ERR ≠ 0 it is dropped. -/
def Obligations.IllegalWordsAreTheListedOnesAndFault : Prop :=
  (∀ w : CommandWord, (∃ e, decode w = .error e) ↔ listedIllegal w) ∧
  ((List.range 256).filter fun op => decide (op ∉ assignedOpcodes)).length = 239 ∧
  (∀ (s : State) (w : CommandWord), s.program[s.pc]? = some w → listedIllegal w →
    (s.err = 0#4 →
      step s = .next { s with pc := s.pc + 1, err := 6#4, errInfo := (w.extractLsb' 56 8).setWidth 16 }) ∧
    (s.err ≠ 0#4 → step s = .next { s with pc := s.pc + 1 }))

/-- R72 to R77, R84: words written out from the format tables stand for the commands they were written for. -/
def Obligations.SpecWordsDecodeToTheirCommands : Prop :=
  decode 0x0000000000000000#64 = .ok .nop ∧
  decode 0x1100000000000068#64 = .ok (.faPush 0x68#8) ∧
  decode 0x224108000000005A#64 = .ok (.ctApp 0x41#8 8#8 0x5A#32) ∧
  decode 0x300000000000006C#64 = .ok (.bpPush 0x6C#8) ∧
  decode 0x4161FF1FF1FF0000#64 = .ok (.tnWr 511#9 false true true 511#9 511#9 0#8) ∧
  decode 0x50000007FFFFFFFF#64 = .ok (.buCfg 7#3 0xFFFFFFFF#32)

/-- R75: the carried bits form the chunk, the first bit being the most significant used one, and the chunk's value is `bits`. -/
def Obligations.ChunkIsTheCarriedBitsFirstBitMostSignificant : Prop :=
  ∀ (n : BitVec 8) (bits : BitVec 32), n.toNat ≤ 32 → bits.toNat < 2 ^ n.toNat →
    (chunkBits n bits).length = n.toNat ∧
    (∀ i, i < n.toNat → (chunkBits n bits)[i]? = some (bits.getLsbD (n.toNat - 1 - i))) ∧
    bitsValue (chunkBits n bits) = bits.toNat

/-! ### The step and the fault state -/

/-- R21, R79: when the next word decodes, the step moves the position on by one and is the command's execution. -/
def Obligations.StepRunsTheDecodedCommand : Prop :=
  ∀ (s : State) (w : CommandWord) (i : Instr), s.program[s.pc]? = some w → decode w = .ok i →
    step s = exec i { s with pc := s.pc + 1 }

/-- R197: in the fault state only the exact words of RD_STATUS and RESET are executed, every other word is dropped. -/
def Obligations.FaultStateDropsAllButStatusAndReset : Prop :=
  ∀ (s : State) (w : CommandWord), s.err ≠ 0#4 → s.program[s.pc]? = some w →
    step s = .next (
      if w = 0x0200000000000000#64 then
        { s with pc := s.pc + 1, rsp := s.rsp ++ [s.errInfo ++ 0x00#8 ++ 0#4 ++ s.err] }
      else if w = 0x0100000000000000#64 then
        { State.reset with pko := s.pko, syo := s.syo, rsp := s.rsp, program := s.program, pc := s.pc + 1 }
      else { s with pc := s.pc + 1 })

/-- R197: every command outside the system group does nothing when ERR ≠ 0. -/
def Obligations.UnitCommandsAreDiscardedInTheFaultState : Prop :=
  ∀ (i : Instr) (s : State), s.err ≠ 0#4 → unitOf i ≠ .system → exec i s = .next s

/-- R208 (with log entry 1 for the exhausted list): with no word to execute a step changes nothing. -/
def Obligations.StepWithoutAWordKeepsAllState : Prop :=
  ∀ s : State, s.program[s.pc]? = none → step s = .next s

/-- R21: every word taken moves the position on by exactly one, whatever it does, and the list of words never changes. That the position
stays where there is no word is the model's choice (log entry 1). -/
def Obligations.PositionMovesByOnePerWord : Prop :=
  ∀ s t : State, step s = .next t →
    t.program = s.program ∧ (s.pc < s.program.length → t.pc = s.pc + 1) ∧ (s.program.length ≤ s.pc → t.pc = s.pc)

/-- R158, R196, R232: every state has a next state, whatever the word is. That no step stops is the model's reading of these rules (log
entry 8, DEDUCED), and that a state with no word steps to itself is the model's choice (log entry 1, DESIGN CHOICE). -/
def Obligations.EveryStepAnswersANextState : Prop := ∀ s : State, ∃ t, step s = .next t

/-- R121 b, R152 c, R158: how much one command can append to each channel. -/
def Obligations.EmissionsOfACommandAreBounded : Prop :=
  ∀ (i : Instr) (s t : State), exec i s = .next t →
    t.pko.length ≤ s.pko.length + 32 ∧ t.rsp.length ≤ s.rsp.length + 1 ∧
    t.syo.length ≤ s.syo.length + max 8 s.buNsym.toNat ∧ (i ≠ .buEnd → t.syo.length ≤ s.syo.length + 8)

/-- R33, R199, R200: once ERR is nonzero a step keeps ERR and ERRINFO, unless it is the RESET word, which clears both. -/
def Obligations.FirstFaultIsKeptUntilReset : Prop :=
  ∀ s t : State, s.err ≠ 0#4 → step s = .next t →
    (t.err = s.err ∧ t.errInfo = s.errInfo ∧ s.program[s.pc]? ≠ some 0x0100000000000000#64) ∨
    (t.err = 0#4 ∧ t.errInfo = 0#16 ∧ s.program[s.pc]? = some 0x0100000000000000#64)

/-- R194: which faults a command can raise, with the sub-causes. -/
def Obligations.CommandsRaiseOnlyTheirOwnFaults : Prop :=
  ∀ (i : Instr) (s t : State), s.err = 0#4 → exec i s = .next t → t.err ≠ 0#4 →
    match i with
    | .faPush sym => t.err = 5#4 ∧ t.errInfo = 0x00#8 ++ sym
    | .ctApp sym _ _ => t.err = 7#4 ∧ (t.errInfo = 1#4 ++ 0#4 ++ sym ∨ t.errInfo = 2#4 ++ 0#4 ++ sym)
    | .bpPush sym => t.err = 3#4 ∧ t.errInfo = 0x00#8 ++ sym
    | .buByte _ => t.err = 4#4 ∧ ∃ idx : NodeIndex, ∃ sub ∈ [1#4, 2#4, 3#4], t.errInfo = sub ++ 0#3 ++ idx
    | .buEnd => t.err = 4#4 ∧ ∃ idx : NodeIndex, ∃ sub ∈ [1#4, 2#4, 3#4, 4#4, 5#4], t.errInfo = sub ++ 0#3 ++ idx
    | _ => False

/-- R198: a fault of any command but BU_BYTE and BU_END changes nothing but ERR and ERRINFO. -/
def Obligations.FaultsArePreciseAtTheCommand : Prop :=
  ∀ (i : Instr) (s t : State), (∀ b, i ≠ .buByte b) → i ≠ .buEnd → s.err = 0#4 → exec i s = .next t → t.err ≠ 0#4 →
    t = { s with err := t.err, errInfo := t.errInfo }

/-- R201: the level output `fault_o` is 1 exactly while ERR ≠ 0. -/
def Obligations.FaultOutputMirrorsTheFaultFlag : Prop := ∀ s : State, faultOutput s = 1#1 ↔ s.err ≠ 0#4

/-! ### Invariants and reset -/

/-- R23, R27, R29, R31, R33, R37, R191, R192, and R50 for the sizes of the tables: from every state that meets the invariant a step gives
one that meets it. The clause that the tables keep their canonical form (rising indices, no reset entry listed) is about the model's own
representation of them (log entry 3, DESIGN CHOICE) and no rule of the spec. -/
def Obligations.StepKeepsTheInvariant : Prop := ∀ s t : State, Invariant s → step s = .next t → Invariant t

/-- R27, R36, R37: the power-on state meets the invariant, whose clause on the tables' canonical form is the model's (log entry 3). -/
def Obligations.PowerOnStateMeetsTheInvariant : Prop := Invariant State.reset

/-- R36, R220: the value of every piece of state at power-on. -/
def Obligations.PowerOnStateHoldsTheResetValues : Prop :=
  (∀ sym, State.reset.histRead sym = 0#32) ∧
  (∀ sym, State.reset.ctRead sym = { valid := false, len := 0#8, code := 0#255 }) ∧
  (∀ i, State.reset.nodeRead i =
    { valid := false, leaf := false, lp := false, rp := false, left := 0#9, right := 0#9, sym := 0#8 }) ∧
  State.reset.acc = 0#8 ∧ State.reset.nbits = 0#3 ∧ State.reset.pad = 0#3 ∧ State.reset.cur = 0#9 ∧
  State.reset.hold = 0#8 ∧ State.reset.holdv = false ∧ State.reset.buPad = 0#3 ∧ State.reset.buNsym = 0#32 ∧
  State.reset.err = 0#4 ∧ State.reset.errInfo = 0#16 ∧ State.reset.pko = [] ∧ State.reset.syo = [] ∧ State.reset.rsp = []

/-- R181: RESET, executed in any state, puts every register and memory at the values of R36 and leaves the channels. That the position
stays is R21's ('no command reads or writes it'), and that the host's list stays is the model's (log entry 1, after R20 and R21). -/
def Obligations.ResetRestoresRegistersAndMemories : Prop :=
  ∀ s : State, ∃ t, exec .reset s = .next t ∧
    (∀ sym, t.histRead sym = 0#32) ∧
    (∀ sym, t.ctRead sym = { valid := false, len := 0#8, code := 0#255 }) ∧
    (∀ i, t.nodeRead i =
      { valid := false, leaf := false, lp := false, rp := false, left := 0#9, right := 0#9, sym := 0#8 }) ∧
    t.acc = 0#8 ∧ t.nbits = 0#3 ∧ t.pad = 0#3 ∧ t.cur = 0#9 ∧ t.hold = 0#8 ∧ t.holdv = false ∧ t.buPad = 0#3 ∧
    t.buNsym = 0#32 ∧ t.err = 0#4 ∧ t.errInfo = 0#16 ∧
    t.pko = s.pko ∧ t.syo = s.syo ∧ t.rsp = s.rsp ∧ t.program = s.program ∧ t.pc = s.pc

/-- R220, R181 d: power-on reset has the effect of RESET, and the three channels start empty; it too ends the fault state (R199). That it
keeps the host's list and position is the model's (log entry 1), and that it is an event apart from every step too (log entry 6). -/
def Obligations.PowerOnResetIsResetWithEmptyChannels : Prop :=
  ∀ s : State, exec .reset s = .next { s.powerOnReset with pko := s.pko, syo := s.syo, rsp := s.rsp } ∧
    s.powerOnReset.pko = [] ∧ s.powerOnReset.syo = [] ∧ s.powerOnReset.rsp = [] ∧ s.powerOnReset.err = 0#4 ∧
    (s.program = [] → s.pc = 0 → s.powerOnReset = State.reset)

/-! ### Whole-machine rules -/

/-- R5, R21, R231: what a word does depends on no word after it: words that the host supplies later change nothing but the list. How they
enter the list is the model's (log entries 1 and 2). -/
def Obligations.LaterWordsDoNotAffectAStep : Prop :=
  ∀ (s : State) (ws : List CommandWord), s.pc < s.program.length →
    step (s.supply ws) = mapAnswer (fun t => t.supply ws) (step s)

/-- R126, R154, R232: BP_END and then a BU_END without fault leave the start state of both kinds of run, which is clean. -/
def Obligations.ClosedRunsLeaveACleanState : Prop :=
  ∀ s t u : State, Invariant s → s.err = 0#4 → exec .bpEnd s = .next t → exec .buEnd t = .next u → u.err = 0#4 →
    clean u = true ∧ u.acc = 0#8 ∧ u.nbits = 0#3 ∧ u.holdv = false ∧ u.hold = 0#8 ∧ u.cur = 0#9

/-- R34: a step only appends to the channels. -/
def Obligations.ChannelsOnlyGrow : Prop :=
  ∀ s t : State, step s = .next t → s.pko <+: t.pko ∧ s.syo <+: t.syo ∧ s.rsp <+: t.rsp

/-- R39 (the frame of all 17 commands): a command changes only the columns that its row of the access table marks written, and ERR and
ERRINFO by fault entry alone (RESET clears them). -/
def Obligations.CommandsChangeOnlyTheirColumns : Prop :=
  ∀ (i : Instr) (s t : State), exec i s = .next t →
    (∀ c : Column, c ∉ writtenColumns i → c.same s t) ∧ t.program = s.program ∧ t.pc = s.pc ∧
    (i ≠ .reset → (t.err = s.err ∧ t.errInfo = s.errInfo) ∨ (s.err = 0#4 ∧ t.err ≠ 0#4))

/-- R233: the units share no state but the fault registers: what a command does to the rest does not depend on another unit's state, and
leaves that state alone. -/
def Obligations.UnitsShareNoStateButTheFaultRegisters : Prop :=
  ∀ (u : HbeUnit) (o s : State) (i : Instr), unitOf i ≠ .system → unitOf i ≠ u →
    exec i (overlay u o s) = mapAnswer (overlay u o) (exec i s)

/-- R56: the listed writes are idempotent, and repeating a read appends the same word again and changes nothing else. -/
def Obligations.RepeatedWritesAndReadsAreIdempotent : Prop :=
  (∀ (i : Instr) (s t : State),
    (match i with
      | .ctSet _ _ _ | .tnWr _ _ _ _ _ _ _ | .buCfg _ _ | .faClr | .ctClr | .tnClr => true
      | _ => false) = true →
    exec i s = .next t → exec i t = .next t) ∧
  (∀ (i : Instr) (s : State), s.err = 0#4 →
    (match i with
      | .faRd _ | .bpRdpad | .rdStatus => true
      | _ => false) = true →
    ∃ w, exec i s = .next { s with rsp := s.rsp ++ [w] } ∧
      exec i { s with rsp := s.rsp ++ [w] } = .next { s with rsp := s.rsp ++ [w] ++ [w] })

/-- R30, R51: CUR only ever takes the value ROOT or one copied from a child field of the tree memory. -/
def Obligations.CurIsRootOrACopiedChildIndex : Prop :=
  ∀ s t : State, step s = .next t →
    t.cur = s.cur ∨ t.cur = 0#9 ∨ ∃ i : NodeIndex, t.cur = (s.nodeRead i).left ∨ t.cur = (s.nodeRead i).right

/-- R50 with log entry 3: tables in canonical form that hold the same entries are the same data. -/
def Obligations.TablesWithTheSameEntriesAreEqual : Prop :=
  ∀ s t : State, Memory.wf s = true → Memory.wf t = true →
    ((∀ k, s.histRead k = t.histRead k) → s.hist = t.hist) ∧
    ((∀ k, s.ctRead k = t.ctRead k) → s.ct = t.ct) ∧
    ((∀ i, s.nodeRead i = t.nodeRead i) → s.tn = t.tn)

/-! ### System commands -/

/-- R180: NOP changes no state, whatever ERR is. -/
def Obligations.NopChangesNothing : Prop := ∀ s : State, exec .nop s = .next s

/-- R182, R81: RD_STATUS, whatever ERR is, appends one response word made of ERRINFO, twelve zero bits and ERR, and changes nothing else;
in the states of the invariant the word is 0 exactly when no fault is recorded. -/
def Obligations.RdStatusAnswersTheFaultRegisters : Prop :=
  ∀ s : State, ∃ w : ResponseWord, exec .rdStatus s = .next { s with rsp := s.rsp ++ [w] } ∧
    w.extractLsb' 16 16 = s.errInfo ∧ w.extractLsb' 4 12 = 0#12 ∧ w.extractLsb' 0 4 = s.err ∧
    (Invariant s → (w = 0#32 ↔ s.err = 0#4))

/-! ### Frequency accumulator -/

/-- R101: FA_CLR makes every count 0 and changes nothing else. -/
def Obligations.FaClrZeroesEveryCount : Prop :=
  ∀ s : State, s.err = 0#4 → ∃ t, exec .faClr s = .next t ∧ (∀ k, t.histRead k = 0#32) ∧ { t with hist := s.hist } = s

/-- R102: FA_PUSH adds exactly one to its symbol's count and changes nothing else; a full count raises CountOverflow and HIST is
unchanged. -/
def Obligations.FaPushCountsItsSymbolOnce : Prop :=
  (∀ (s : State) (sym : Symbol), s.err = 0#4 → s.histRead sym ≠ 0xFFFFFFFF#32 →
    ∃ t, exec (.faPush sym) s = .next t ∧ (t.histRead sym).toNat = (s.histRead sym).toNat + 1 ∧
      (∀ k, k ≠ sym → t.histRead k = s.histRead k) ∧ { t with hist := s.hist } = s) ∧
  (∀ (s : State) (sym : Symbol), s.err = 0#4 → s.histRead sym = 0xFFFFFFFF#32 →
    exec (.faPush sym) s = .next { s with err := 5#4, errInfo := sym.setWidth 16 })

/-- R103: FA_RD appends the count of its symbol to RSP and changes nothing else. -/
def Obligations.FaRdAnswersTheCount : Prop :=
  ∀ (s : State) (sym : Symbol), s.err = 0#4 →
    exec (.faRd sym) s = .next { s with rsp := s.rsp ++ [s.histRead sym] }

/-- R83, R103: FA_DUMP appends the 256 counts to RSP in symbol order and changes nothing else. -/
def Obligations.FaDumpAnswersEveryCount : Prop :=
  ∀ s : State, s.err = 0#4 →
    execAll faDump s = .next { s with rsp := s.rsp ++ (List.range 256).map fun k => s.histRead (BitVec.ofNat 8 k) }

/-- R104: with all counts 0 at the start, and no RESET or FA_CLR after it, each count is the number of pushes of its symbol that did not
fault, and their sum is the number of all of them. -/
def Obligations.CountsAreTheNumbersOfPushes : Prop :=
  ∀ (is : List Instr) (s t : State), (∀ k, s.histRead k = 0#32) → Instr.reset ∉ is → Instr.faClr ∉ is →
    execAll is s = .next t →
    (∀ k, (t.histRead k).toNat = countedPushes (fun sym => sym == k) is s) ∧
    countSum t = countedPushes (fun _ => true) is s

/-- R105: the final counts depend only on how many times each symbol was pushed. -/
def Obligations.CountsDoNotDependOnTheOrderOfPushes : Prop :=
  ∀ (is₁ is₂ : List Instr) (s t₁ t₂ : State), Instr.reset ∉ is₁ → Instr.faClr ∉ is₁ → Instr.reset ∉ is₂ → Instr.faClr ∉ is₂ →
    (∀ k, (countedSymbols is₁).count k = (countedSymbols is₂).count k) →
    execAll is₁ s = .next t₁ → execAll is₂ s = .next t₂ → t₁.err = 0#4 → t₂.err = 0#4 →
    ∀ k, t₁.histRead k = t₂.histRead k

/-! ### Code table -/

/-- R110: CT_CLR leaves no symbol a code and changes nothing else; after it every BP_PUSH raises UnknownSymbolError. -/
def Obligations.CtClrEmptiesTheCodeTable : Prop :=
  ∀ s : State, s.err = 0#4 → ∃ t, exec .ctClr s = .next t ∧
    (∀ k, t.ctRead k = { valid := false, len := 0#8, code := 0#255 }) ∧ { t with ct := s.ct } = s ∧
    (∀ sym : Symbol, exec (.bpPush sym) t = .next { t with err := 3#4, errInfo := sym.setWidth 16 })

/-- R111: CT_SET gives its symbol the code of `n` bits, `code[i] = bits[n-1-i]`, with zeros behind it, whatever it was before, and changes
nothing else. -/
def Obligations.CtSetReplacesTheCode : Prop :=
  ∀ (s : State) (sym : Symbol) (n : BitVec 8) (bits : BitVec 32), s.err = 0#4 →
    ∃ t, exec (.ctSet sym n bits) s = .next t ∧
      (t.ctRead sym).valid = true ∧ (t.ctRead sym).len = n ∧
      (∀ i, (t.ctRead sym).code.getLsbD i = (decide (i < n.toNat) && bits.getLsbD (n.toNat - 1 - i))) ∧
      (∀ k, k ≠ sym → t.ctRead k = s.ctRead k) ∧ { t with ct := s.ct } = s

/-- R112: CT_APP puts its `n` bits after the code and changes nothing else; with no code it raises CodeTableError sub-cause 1, else past
255 bits sub-cause 2, and CT is unchanged. -/
def Obligations.CtAppLengthensTheCode : Prop :=
  (∀ (s : State) (sym : Symbol) (n : BitVec 8) (bits : BitVec 32), s.err = 0#4 → (s.ctRead sym).valid = true →
    (s.ctRead sym).len.toNat + n.toNat ≤ 255 →
    ∃ t, exec (.ctApp sym n bits) s = .next t ∧
      (t.ctRead sym).valid = true ∧ (t.ctRead sym).len.toNat = (s.ctRead sym).len.toNat + n.toNat ∧
      (∀ i, i < (s.ctRead sym).len.toNat → (t.ctRead sym).code.getLsbD i = (s.ctRead sym).code.getLsbD i) ∧
      (∀ i, (t.ctRead sym).code.getLsbD ((s.ctRead sym).len.toNat + i) =
        (decide (i < n.toNat) && bits.getLsbD (n.toNat - 1 - i))) ∧
      (∀ k, k ≠ sym → t.ctRead k = s.ctRead k) ∧ { t with ct := s.ct } = s) ∧
  (∀ (s : State) (sym : Symbol) (n : BitVec 8) (bits : BitVec 32), s.err = 0#4 → (s.ctRead sym).valid = false →
    exec (.ctApp sym n bits) s = .next { s with err := 7#4, errInfo := 0x1#4 ++ 0b0000#4 ++ sym }) ∧
  (∀ (s : State) (sym : Symbol) (n : BitVec 8) (bits : BitVec 32), s.err = 0#4 → (s.ctRead sym).valid = true →
    255 < (s.ctRead sym).len.toNat + n.toNat →
    exec (.ctApp sym n bits) s = .next { s with err := 7#4, errInfo := 0x2#4 ++ 0b0000#4 ++ sym })

/-- R113: after CT_CODE with a string of at most 255 bits the symbol's entry is exactly that code, whatever it was before, and no other
entry has changed. -/
def Obligations.CtCodeLoadsTheWholeString : Prop :=
  ∀ (s : State) (sym : Symbol) (c : List Bool), s.err = 0#4 → c.length ≤ 255 →
    ∃ t, execAll (ctCode sym c) s = .next t ∧ t.err = 0#4 ∧
      (t.ctRead sym).valid = true ∧ (t.ctRead sym).len.toNat = c.length ∧
      (∀ i, (t.ctRead sym).code.getLsbD i = c.getD i false) ∧
      (∀ k, k ≠ sym → t.ctRead k = s.ctRead k) ∧ { t with ct := s.ct } = s

/-! ### Bit packer -/

/-- R121: BP_PUSH puts the code's bits behind the pending ones, emits every complete byte of them and keeps the rest pending, and changes
nothing else; a symbol with no code raises UnknownSymbolError and no bit is packed. -/
def Obligations.BpPushPacksTheCodeBits : Prop :=
  (∀ (s : State) (sym : Symbol), s.err = 0#4 → BufferOk s → (s.ctRead sym).valid = true →
    ∃ t, exec (.bpPush sym) s = .next t ∧
      t.pko = s.pko ++ fullBytes (pendingBits s ++ codeBits (s.ctRead sym)) ∧
      pendingBits t = leftover (pendingBits s ++ codeBits (s.ctRead sym)) ∧ BufferOk t ∧
      t.pko.length = s.pko.length + (s.nbits.toNat + (s.ctRead sym).len.toNat) / 8 ∧
      t.nbits.toNat = (s.nbits.toNat + (s.ctRead sym).len.toNat) % 8 ∧
      { t with acc := s.acc, nbits := s.nbits, pko := s.pko } = s) ∧
  (∀ (s : State) (sym : Symbol), s.err = 0#4 → (s.ctRead sym).valid = false →
    exec (.bpPush sym) s = .next { s with err := 3#4, errInfo := sym.setWidth 16 })

/-- R122: BP_END emits ACC when bits are pending, which is those bits and then zeros, and records 8 - NBITS; with none pending it emits
nothing and records 0; either way the buffer is empty after it and nothing else changes. -/
def Obligations.BpEndFlushesWithZeroPadding : Prop :=
  (∀ s : State, s.err = 0#4 → 0 < s.nbits.toNat →
    ∃ t, exec .bpEnd s = .next t ∧ t.pko = s.pko ++ [s.acc] ∧ t.pad.toNat = 8 - s.nbits.toNat ∧ t.acc = 0#8 ∧ t.nbits = 0#3 ∧
      { t with pko := s.pko, pad := s.pad, acc := s.acc, nbits := s.nbits } = s ∧
      (BufferOk s → byteBits s.acc = pendingBits s ++ List.replicate t.pad.toNat false)) ∧
  (∀ s : State, s.err = 0#4 → s.nbits = 0#3 → exec .bpEnd s = .next { s with pad := 0#3 })

/-- R123: BP_RDPAD appends PAD, zero-extended, to RSP and changes nothing else. -/
def Obligations.BpRdpadAnswersThePaddingCount : Prop :=
  ∀ s : State, s.err = 0#4 → exec .bpRdpad s = .next { s with rsp := s.rsp ++ [s.pad.setWidth 32] }

/-- R124, R125: a packing run from an empty buffer, CT unchanged and no fault, appends the complete bytes of the concatenated codes as
they fill, and its BP_END the rest with zero padding, recording the padding count and leaving the buffer empty. -/
def Obligations.PackingRunEmitsThePaddedCodes : Prop :=
  ∀ (is : List Instr) (s t : State), s.err = 0#4 → s.nbits = 0#3 → s.acc = 0#8 → (∀ i ∈ is, inPackingRun i = true) →
    execAll is s = .next t → t.err = 0#4 →
    let bits := (packedSymbols is).flatMap fun sym => codeBits (s.ctRead sym)
    t.pko = s.pko ++ fullBytes bits ∧ t.nbits.toNat = bits.length % 8 ∧
    ∃ u, exec .bpEnd t = .next u ∧ u.pko = s.pko ++ paddedBytes bits ∧
      (paddedBytes bits).length = (bits.length + 7) / 8 ∧ u.pad.toNat = paddingOf bits.length ∧ u.nbits = 0#3 ∧ u.acc = 0#8

/-! ### Tree memory -/

/-- R140: TN_CLR makes every node invalid with all fields 0 and changes nothing else; after it every walk step, and a BU_END that reads
the root, raises sub-cause 1. -/
def Obligations.TnClrEmptiesTheTreeMemory : Prop :=
  ∀ s : State, s.err = 0#4 → ∃ t, exec .tnClr s = .next t ∧
    (∀ i, t.nodeRead i =
      { valid := false, leaf := false, lp := false, rp := false, left := 0#9, right := 0#9, sym := 0#8 }) ∧
    { t with tn := s.tn } = s ∧
    (∀ bit, walk bit t = .error { t with err := 4#4, errInfo := 0x1#4 ++ 0b000#3 ++ t.cur }) ∧
    (t.holdv = false → t.buPad = 0#3 → exec .buEnd t = .next { t with err := 4#4, errInfo := 0x1000#16 })

/-- R141: TN_WR replaces its whole entry, which is valid after it, and changes nothing else. -/
def Obligations.TnWrReplacesTheNode : Prop :=
  ∀ (s : State) (idx : NodeIndex) (leaf lp rp : Bool) (left right : NodeIndex) (sym : Symbol), s.err = 0#4 →
    ∃ t, exec (.tnWr idx leaf lp rp left right sym) s = .next t ∧
      t.nodeRead idx = { valid := true, leaf := leaf, lp := lp, rp := rp, left := left, right := right, sym := sym } ∧
      (∀ i, i ≠ idx → t.nodeRead i = s.nodeRead i) ∧ { t with tn := s.tn } = s

/-- R142: TN_CLR and then one TN_WR per node in preorder leave a tree of at most 512 nodes in TN with its root at entry 0, and change
nothing else. -/
def Obligations.PreorderLoadStoresTheTree : Prop :=
  ∀ (tree : HuffTree) (s : State), s.err = 0#4 → tree.nodes ≤ 512 →
    ∃ t, execAll (.tnClr :: (tree.load 0).1) s = .next t ∧ tree.StoredAt t.nodeRead 0#9 ∧ { t with tn := s.tn } = s

/-! ### Bit unpacker -/

/-- R151: BU_CFG writes BU_PAD and BU_NSYM and changes nothing else. -/
def Obligations.BuCfgSetsPaddingAndSymbolCount : Prop :=
  ∀ (s : State) (pad : BitVec 3) (nsym : BitVec 32), s.err = 0#4 →
    exec (.buCfg pad nsym) s = .next { s with buPad := pad, buNsym := nsym }

/-- R152, R155: BU_BYTE walks the byte held so far, bit 7 first, and holds its own byte; with none held it only holds; a bit that faults
ends it, the earlier bits' symbols and CUR staying and the old byte still held. -/
def Obligations.BuByteWalksTheHeldByteAndHoldsItsOwn : Prop :=
  (∀ (s : State) (b : Byte), s.err = 0#4 → s.holdv = false →
    exec (.buByte b) s = .next { s with hold := b, holdv := true }) ∧
  (∀ (s : State) (b : Byte) (out : List Symbol) (last : NodeIndex), s.err = 0#4 → s.holdv = true →
    Walks s.nodeRead s.cur (byteBits s.hold) out last →
    exec (.buByte b) s = .next { s with syo := s.syo ++ out, cur := last, hold := b, holdv := true }) ∧
  (∀ (s : State) (b : Byte) (before rest : List Bool) (bit : Bool) (out : List Symbol) (mid idx : NodeIndex) (sub : BitVec 4),
    s.err = 0#4 → s.holdv = true → byteBits s.hold = before ++ bit :: rest →
    Walks s.nodeRead s.cur before out mid → WalkFault s.nodeRead mid bit sub idx →
    exec (.buByte b) s =
      .next { s with syo := s.syo ++ out, cur := mid, err := 4#4, errInfo := sub ++ 0#3 ++ idx })

/-- R153, R155, with a byte held: BU_END walks its bits above the padding; it completes at the root, with the byte dropped; elsewhere it
raises sub-cause 4 after dropping the byte; a bit that faults leaves the byte held. -/
def Obligations.BuEndWalksTheLastByte : Prop :=
  (∀ (s : State) (out : List Symbol), s.err = 0#4 → s.holdv = true →
    Walks s.nodeRead s.cur (lastByteBits s.buPad s.hold) out 0#9 →
    exec .buEnd s = .next { s with syo := s.syo ++ out, cur := 0#9, hold := 0#8, holdv := false }) ∧
  (∀ (s : State) (out : List Symbol) (last : NodeIndex), s.err = 0#4 → s.holdv = true →
    Walks s.nodeRead s.cur (lastByteBits s.buPad s.hold) out last → last ≠ 0#9 →
    exec .buEnd s = .next { s with syo := s.syo ++ out, cur := last, hold := 0#8, holdv := false,
                                   err := 4#4, errInfo := 4#4 ++ 0#3 ++ last }) ∧
  (∀ (s : State) (before rest : List Bool) (bit : Bool) (out : List Symbol) (mid idx : NodeIndex) (sub : BitVec 4),
    s.err = 0#4 → s.holdv = true → lastByteBits s.buPad s.hold = before ++ bit :: rest →
    Walks s.nodeRead s.cur before out mid → WalkFault s.nodeRead mid bit sub idx →
    exec .buEnd s =
      .next { s with syo := s.syo ++ out, cur := mid, err := 4#4, errInfo := sub ++ 0#3 ++ idx })

/-- R153, with no byte held: padding raises sub-cause 5, an unwritten root sub-cause 1, a leaf root gives its symbol BU_NSYM times, an
internal root nothing. -/
def Obligations.BuEndOfAnEmptyPayload : Prop :=
  ∀ s : State, s.err = 0#4 → s.holdv = false →
    (s.buPad ≠ 0#3 → exec .buEnd s = .next { s with err := 4#4, errInfo := 0x5000#16 }) ∧
    (s.buPad = 0#3 → (s.nodeRead 0#9).valid = false → exec .buEnd s = .next { s with err := 4#4, errInfo := 0x1000#16 }) ∧
    (s.buPad = 0#3 → (s.nodeRead 0#9).valid = true → (s.nodeRead 0#9).leaf = true →
      exec .buEnd s = .next { s with syo := s.syo ++ List.replicate s.buNsym.toNat (s.nodeRead 0#9).sym }) ∧
    (s.buPad = 0#3 → (s.nodeRead 0#9).valid = true → (s.nodeRead 0#9).leaf = false → exec .buEnd s = .next s)

/-- R156: an unpacking run with a payload, TN unchanged and no fault so far, has given the symbols of the walk of all payload bytes but the
last, whatever the bytes are and whether or not the payload could end there; a BU_END without fault then gives the rest: together exactly
the symbols of the walk of the payload's bits less its padding, and the run ends at the root. -/
def Obligations.UnpackingRunGivesTheWalkOfItsPayload : Prop :=
  ∀ (is : List Instr) (s t : State), s.err = 0#4 → s.holdv = false → s.cur = 0#9 → (∀ i ∈ is, inUnpackingRun i = true) →
    payloadBytes is ≠ [] → execAll is s = .next t → t.err = 0#4 →
    let bits := (payloadBytes is).flatMap byteBits
    (∃ out, Walks s.nodeRead 0#9 (bits.take (bits.length - 8)) out t.cur ∧ t.syo = s.syo ++ out) ∧
    (∀ u : State, exec .buEnd t = .next u → u.err = 0#4 →
      (∃ out, Walks s.nodeRead 0#9 (bits.take (bits.length - t.buPad.toNat)) out 0#9 ∧ u.syo = s.syo ++ out) ∧ u.cur = 0#9)

/-- R157, more than one leaf: symbols packed with the codes of a tree come back when the payload and padding count are unpacked with that
tree, and no fault is raised. -/
def Obligations.PackedSymbolsUnpackToThemselves : Prop :=
  ∀ (l r : HuffTree) (syms : List Symbol) (s : State), s.err = 0#4 → s.nbits = 0#3 → s.acc = 0#8 →
    (∀ sym ∈ syms, (HuffTree.node l r).CodedIn s sym) →
    ∃ (t : State) (bytes : List Byte), execAll (bpStr syms ++ [.bpEnd]) s = .next t ∧ t.err = 0#4 ∧ t.pko = s.pko ++ bytes ∧
      ∀ (v : State) (x : BitVec 32), v.err = 0#4 → v.holdv = false → v.cur = 0#9 →
        (HuffTree.node l r).StoredAt v.nodeRead 0#9 →
        ∃ u, execAll (.buCfg t.pad x :: buBytes bytes ++ [.buEnd]) v = .next u ∧ u.syo = v.syo ++ syms ∧ u.err = 0#4

/-- R157, one leaf: pushes of the only symbol pack nothing, and the unpacker gives as many copies as BU_CFG says. -/
def Obligations.SingleSymbolStreamRoundTrips : Prop :=
  ∀ (sym : Symbol) (k : Nat) (s : State), k < 2 ^ 32 → s.err = 0#4 → s.nbits = 0#3 →
    (s.ctRead sym).valid = true → (s.ctRead sym).len = 0#8 →
    ∃ t, execAll (bpStr (List.replicate k sym) ++ [.bpEnd]) s = .next t ∧ t.err = 0#4 ∧ t.pko = s.pko ∧ t.pad = 0#3 ∧
      ∀ v : State, v.err = 0#4 → v.holdv = false → (HuffTree.leaf sym).StoredAt v.nodeRead 0#9 →
        ∃ u, execAll [.buCfg t.pad (BitVec.ofNat 32 k), .buEnd] v = .next u ∧ u.syo = v.syo ++ List.replicate k sym ∧ u.err = 0#4
end

