-- ==== Sys2Proof/Laws/Decode.lean ====
section
/-!
SUPPORT. The fields of an encoded word, format by format, and what decoding a format succeeds on.
-/

namespace Sys2Proof

/-! ### One check -/

theorem require_eq_ok {holds : Bool} {why : Illegal} {rest : Except Illegal Instr} {i : Instr} :
    require holds why rest = .ok i ↔ holds = true ∧ rest = .ok i := by
  cases holds <;> simp [require]

/-- A field of an append is a field of its low part, when it ends there. -/
theorem extract_append_low {n m : Nat} (x : BitVec n) (y : BitVec m) (start len : Nat) (h : start + len ≤ m) :
    (x ++ y).extractLsb' start len = y.extractLsb' start len := by
  apply BitVec.eq_of_getLsbD_eq
  intro i hi
  simp only [BitVec.getLsbD_extractLsb', BitVec.getLsbD_append]
  rw [if_pos (by omega)]

/-- A field of an append is a field of its high part, when it starts there. -/
theorem extract_append_high {n m : Nat} (x : BitVec n) (y : BitVec m) (start len : Nat) (h : m ≤ start) :
    (x ++ y).extractLsb' start len = x.extractLsb' (start - m) len := by
  apply BitVec.eq_of_getLsbD_eq
  intro i hi
  simp only [BitVec.getLsbD_extractLsb', BitVec.getLsbD_append]
  rw [if_neg (by omega)]
  congr 2
  omega

/-- A bit of an append, inside its low part. -/
theorem bit_append_low {n m : Nat} (x : BitVec n) (y : BitVec m) (i : Nat) (h : i < m) :
    (x ++ y).getLsbD i = y.getLsbD i := by
  rw [BitVec.getLsbD_append, if_pos h]

/-- A bit of an append, inside its high part. -/
theorem bit_append_high {n m : Nat} (x : BitVec n) (y : BitVec m) (i : Nat) (h : m ≤ i) :
    (x ++ y).getLsbD i = x.getLsbD (i - m) := by
  rw [BitVec.getLsbD_append, if_neg (by omega)]

theorem extract_self {n : Nat} (x : BitVec n) : x.extractLsb' 0 n = x := by simp

/-! ### Fields of the encoded formats -/

@[simp] theorem opField_encodeZ (op : BitVec 8) : opField (encodeZ op) = op := by
  simp only [opField, encodeZ]
  rw [extract_append_high _ _ _ _ (by omega)]
  exact extract_self op

@[simp] theorem opField_encodeS (op sym : BitVec 8) : opField (encodeS op sym) = op := by
  simp only [opField, encodeS]
  rw [extract_append_high _ _ _ _ (by omega), extract_append_high _ _ _ _ (by omega)]
  exact extract_self op

@[simp] theorem opField_encodeC (op sym n : BitVec 8) (bits : BitVec 32) : opField (encodeC op sym n bits) = op := by
  simp only [opField, encodeC]
  iterate 4 rw [extract_append_high _ _ _ _ (by omega)]
  exact extract_self op

@[simp] theorem opField_encodeT (op : BitVec 8) (idx : NodeIndex) (leaf lp rp : Bool) (left right : NodeIndex) (sym : Symbol) :
    opField (encodeT op idx leaf lp rp left right sym) = op := by
  simp only [opField, encodeT]
  iterate 9 rw [extract_append_high _ _ _ _ (by omega)]
  exact extract_self op

@[simp] theorem opField_encodeB (op : BitVec 8) (pad : BitVec 3) (nsym : BitVec 32) : opField (encodeB op pad nsym) = op := by
  simp only [opField, encodeB]
  iterate 3 rw [extract_append_high _ _ _ _ (by omega)]
  exact extract_self op

/-! ### Decoding the encoded formats -/

theorem decodeZ_encodeZ (i : Instr) (op : BitVec 8) : decodeZ i (encodeZ op) = .ok i := by
  rw [decodeZ, require_eq_ok]
  refine ⟨?_, rfl⟩
  simp only [encodeZ]
  rw [extract_append_low _ _ _ _ (by omega)]
  rfl

theorem decodeS_encodeS (make : BitVec 8 → Instr) (op sym : BitVec 8) :
    decodeS make (encodeS op sym) = .ok (make sym) := by
  rw [decodeS, require_eq_ok]
  refine ⟨?_, ?_⟩
  · simp only [encodeS]
    rw [extract_append_high _ _ _ _ (by omega), extract_append_low _ _ _ _ (by omega)]
    rfl
  · simp only [lowField, encodeS]
    rw [extract_append_low _ _ _ _ (by omega), extract_self]

theorem decodeC_encodeC (make : Symbol → BitVec 8 → BitVec 32 → Instr) (op sym n : BitVec 8) (bits : BitVec 32)
    (h : chunkWellFormed n bits = true) : decodeC make (encodeC op sym n bits) = .ok (make sym n bits) := by
  simp only [chunkWellFormed, Bool.and_eq_true] at h
  have hn : chunkLenField (encodeC op sym n bits) = n := by
    simp only [chunkLenField, encodeC]
    iterate 2 rw [extract_append_high _ _ _ _ (by omega)]
    rw [extract_append_low _ _ _ _ (by omega)]
    exact extract_self n
  have hb : wordField (encodeC op sym n bits) = bits := by
    simp only [wordField, encodeC]
    rw [extract_append_low _ _ _ _ (by omega), extract_self]
  have hs : chunkSymField (encodeC op sym n bits) = sym := by
    simp only [chunkSymField, encodeC]
    iterate 3 rw [extract_append_high _ _ _ _ (by omega)]
    rw [extract_append_low _ _ _ _ (by omega)]
    exact extract_self sym
  have hr : (encodeC op sym n bits).extractLsb' 32 8 = 0#8 := by
    simp only [encodeC]
    rw [extract_append_high _ _ _ _ (by omega), extract_append_low _ _ _ _ (by omega)]
    exact extract_self _
  simp only [decodeC, require_eq_ok, hn, hb, hs, hr, h.1, h.2, and_self, BEq.rfl]

theorem indexFits_zext (i : NodeIndex) : indexFits (0#3 ++ i) = true := by
  simp only [indexFits, beq_iff_eq]
  rw [extract_append_high _ _ _ _ (by omega)]
  exact extract_self _

theorem setWidth_zext (i : NodeIndex) : (0#3 ++ i).setWidth 9 = i := by
  apply BitVec.eq_of_getLsbD_eq
  intro j hj
  simp only [BitVec.getLsbD_setWidth, BitVec.getLsbD_append, hj, decide_true, Bool.true_and, if_true]

theorem zext_eq_zero (i : NodeIndex) : ((0#3 ++ i) == 0#12) = (i == 0#9) := by
  rw [Bool.eq_iff_iff, beq_iff_eq, beq_iff_eq]
  constructor
  · intro h
    rw [← setWidth_zext i, h]
    rfl
  · rintro rfl
    rfl

theorem decodeT_encodeT (op : BitVec 8) (idx : NodeIndex) (leaf lp rp : Bool) (left right : NodeIndex) (sym : Symbol)
    (h : nodeWellFormed leaf lp rp left right sym = true) :
    decodeT (encodeT op idx leaf lp rp left right sym) = .ok (.tnWr idx leaf lp rp left right sym) := by
  have hsym : lowField (encodeT op idx leaf lp rp left right sym) = sym := by
    simp only [lowField, encodeT]
    rw [extract_append_low _ _ _ _ (by omega), extract_self]
  have hmid : (encodeT op idx leaf lp rp left right sym).extractLsb' 8 8 = 0#8 := by
    simp only [encodeT]
    rw [extract_append_high _ _ _ _ (by omega), extract_append_low _ _ _ _ (by omega)]
    exact extract_self _
  have hright : rightField (encodeT op idx leaf lp rp left right sym) = 0#3 ++ right := by
    simp only [rightField, encodeT]
    iterate 2 rw [extract_append_high _ _ _ _ (by omega)]
    rw [extract_append_low _ _ _ _ (by omega)]
    exact extract_self _
  have hleft : leftField (encodeT op idx leaf lp rp left right sym) = 0#3 ++ left := by
    simp only [leftField, encodeT]
    iterate 3 rw [extract_append_high _ _ _ _ (by omega)]
    rw [extract_append_low _ _ _ _ (by omega)]
    exact extract_self _
  have hidx : idxField (encodeT op idx leaf lp rp left right sym) = 0#3 ++ idx := by
    simp only [idxField, encodeT]
    iterate 4 rw [extract_append_high _ _ _ _ (by omega)]
    rw [extract_append_low _ _ _ _ (by omega)]
    exact extract_self _
  have hleaf : leafField (encodeT op idx leaf lp rp left right sym) = leaf := by
    simp only [leafField, encodeT]
    iterate 8 rw [bit_append_high _ _ _ (by omega)]
    rw [bit_append_low _ _ _ (by omega)]
    simp
  have hlp : lpField (encodeT op idx leaf lp rp left right sym) = lp := by
    simp only [lpField, encodeT]
    iterate 7 rw [bit_append_high _ _ _ (by omega)]
    rw [bit_append_low _ _ _ (by omega)]
    simp
  have hrp : rpField (encodeT op idx leaf lp rp left right sym) = rp := by
    simp only [rpField, encodeT]
    iterate 6 rw [bit_append_high _ _ _ (by omega)]
    rw [bit_append_low _ _ _ (by omega)]
    simp
  have h52 : (encodeT op idx leaf lp rp left right sym).getLsbD 52 = false := by
    simp only [encodeT]
    iterate 5 rw [bit_append_high _ _ _ (by omega)]
    rw [bit_append_low _ _ _ (by omega)]
    rfl
  simp only [nodeWellFormed, Bool.and_eq_true] at h
  simp only [decodeT, require_eq_ok, hsym, hmid, hright, hleft, hidx, hleaf, hlp, hrp, h52, indexFits_zext, zext_eq_zero,
    setWidth_zext, h, Bool.and_true, Bool.not_false, BEq.rfl, and_self]

theorem decodeB_encodeB (op : BitVec 8) (pad : BitVec 3) (nsym : BitVec 32) :
    decodeB (encodeB op pad nsym) = .ok (.buCfg pad nsym) := by
  have hn : wordField (encodeB op pad nsym) = nsym := by
    simp only [wordField, encodeB]
    rw [extract_append_low _ _ _ _ (by omega), extract_self]
  have hp : padField (encodeB op pad nsym) = 0#5 ++ pad := by
    simp only [padField, encodeB]
    rw [extract_append_high _ _ _ _ (by omega), extract_append_low _ _ _ _ (by omega)]
    exact extract_self _
  have hr : (encodeB op pad nsym).extractLsb' 40 16 = 0#16 := by
    simp only [encodeB]
    iterate 2 rw [extract_append_high _ _ _ _ (by omega)]
    rw [extract_append_low _ _ _ _ (by omega)]
    exact extract_self _
  have hv : (0#5 ++ pad).toNat ≤ 7 := by
    simp only [BitVec.toNat_append, BitVec.toNat_ofNat, Nat.zero_mod, Nat.zero_shiftLeft, Nat.zero_or]
    omega
  have hw : (0#5 ++ pad).setWidth 3 = pad := by
    apply BitVec.eq_of_getLsbD_eq
    intro j hj
    simp only [BitVec.getLsbD_setWidth, BitVec.getLsbD_append, hj, decide_true, Bool.true_and, if_true]
  simp only [decodeB, require_eq_ok, hn, hp, hr, hv, hw, decide_true, BEq.rfl, and_self]

/-! ### The opcode map, row by row (R78) -/

variable {w : CommandWord}

theorem decode_of_op_nop (h : opField w = 0x00#8) : decode w = decodeZ .nop w := by rw [decode, h]; rfl

theorem decode_of_op_reset (h : opField w = 0x01#8) : decode w = decodeZ .reset w := by rw [decode, h]; rfl

theorem decode_of_op_rdStatus (h : opField w = 0x02#8) : decode w = decodeZ .rdStatus w := by rw [decode, h]; rfl

theorem decode_of_op_faClr (h : opField w = 0x10#8) : decode w = decodeZ .faClr w := by rw [decode, h]; rfl

theorem decode_of_op_faPush (h : opField w = 0x11#8) : decode w = decodeS .faPush w := by rw [decode, h]; rfl

theorem decode_of_op_faRd (h : opField w = 0x12#8) : decode w = decodeS .faRd w := by rw [decode, h]; rfl

theorem decode_of_op_ctClr (h : opField w = 0x20#8) : decode w = decodeZ .ctClr w := by rw [decode, h]; rfl

theorem decode_of_op_ctSet (h : opField w = 0x21#8) : decode w = decodeC .ctSet w := by rw [decode, h]; rfl

theorem decode_of_op_ctApp (h : opField w = 0x22#8) : decode w = decodeC .ctApp w := by rw [decode, h]; rfl

theorem decode_of_op_bpPush (h : opField w = 0x30#8) : decode w = decodeS .bpPush w := by rw [decode, h]; rfl

theorem decode_of_op_bpEnd (h : opField w = 0x31#8) : decode w = decodeZ .bpEnd w := by rw [decode, h]; rfl

theorem decode_of_op_bpRdpad (h : opField w = 0x32#8) : decode w = decodeZ .bpRdpad w := by rw [decode, h]; rfl

theorem decode_of_op_tnClr (h : opField w = 0x40#8) : decode w = decodeZ .tnClr w := by rw [decode, h]; rfl

theorem decode_of_op_tnWr (h : opField w = 0x41#8) : decode w = decodeT w := by rw [decode, h]; rfl

theorem decode_of_op_buCfg (h : opField w = 0x50#8) : decode w = decodeB w := by rw [decode, h]; rfl

theorem decode_of_op_buByte (h : opField w = 0x51#8) : decode w = decodeS .buByte w := by rw [decode, h]; rfl

theorem decode_of_op_buEnd (h : opField w = 0x52#8) : decode w = decodeZ .buEnd w := by rw [decode, h]; rfl

/-! ### A word is its fields put together -/

/-- Two fields that stand next to each other are one field. -/
theorem extract_append_extract {N : Nat} (w : BitVec N) (s m n : Nat) :
    w.extractLsb' (s + m) n ++ w.extractLsb' s m = w.extractLsb' s (n + m) := by
  apply BitVec.eq_of_getLsbD_eq
  intro i hi
  simp only [BitVec.getLsbD_append, BitVec.getLsbD_extractLsb']
  by_cases h : i < m
  · simp [h, hi]
  · have : i - m < n := by omega
    simp only [h, if_false, this, hi]
    congr 2
    omega

end Sys2Proof
end

