-- ==== Sys2Proof/Laws/State.lean ====
section
/-!
SUPPORT. One lemma per field of State for each named update: what the field is afterwards. Later proofs use these and unfold no record
update.
-/

namespace Sys2Proof.Machine

variable (s : State)

/-! ### histWrite -/

@[simp] theorem State.histWrite_hist (k : Symbol) (v : Count) : (s.histWrite k v).hist = Table.write 0#32 s.hist k.toNat v := rfl
@[simp] theorem State.histWrite_ct (k : Symbol) (v : Count) : (s.histWrite k v).ct = s.ct := rfl
@[simp] theorem State.histWrite_tn (k : Symbol) (v : Count) : (s.histWrite k v).tn = s.tn := rfl
@[simp] theorem State.histWrite_acc (k : Symbol) (v : Count) : (s.histWrite k v).acc = s.acc := rfl
@[simp] theorem State.histWrite_nbits (k : Symbol) (v : Count) : (s.histWrite k v).nbits = s.nbits := rfl
@[simp] theorem State.histWrite_pad (k : Symbol) (v : Count) : (s.histWrite k v).pad = s.pad := rfl
@[simp] theorem State.histWrite_cur (k : Symbol) (v : Count) : (s.histWrite k v).cur = s.cur := rfl
@[simp] theorem State.histWrite_hold (k : Symbol) (v : Count) : (s.histWrite k v).hold = s.hold := rfl
@[simp] theorem State.histWrite_holdv (k : Symbol) (v : Count) : (s.histWrite k v).holdv = s.holdv := rfl
@[simp] theorem State.histWrite_buPad (k : Symbol) (v : Count) : (s.histWrite k v).buPad = s.buPad := rfl
@[simp] theorem State.histWrite_buNsym (k : Symbol) (v : Count) : (s.histWrite k v).buNsym = s.buNsym := rfl
@[simp] theorem State.histWrite_err (k : Symbol) (v : Count) : (s.histWrite k v).err = s.err := rfl
@[simp] theorem State.histWrite_errInfo (k : Symbol) (v : Count) : (s.histWrite k v).errInfo = s.errInfo := rfl
@[simp] theorem State.histWrite_pko (k : Symbol) (v : Count) : (s.histWrite k v).pko = s.pko := rfl
@[simp] theorem State.histWrite_syo (k : Symbol) (v : Count) : (s.histWrite k v).syo = s.syo := rfl
@[simp] theorem State.histWrite_rsp (k : Symbol) (v : Count) : (s.histWrite k v).rsp = s.rsp := rfl
@[simp] theorem State.histWrite_program (k : Symbol) (v : Count) : (s.histWrite k v).program = s.program := rfl
@[simp] theorem State.histWrite_pc (k : Symbol) (v : Count) : (s.histWrite k v).pc = s.pc := rfl

/-! ### ctWrite -/

@[simp] theorem State.ctWrite_hist (k : Symbol) (e : CodeEntry) : (s.ctWrite k e).hist = s.hist := rfl
@[simp] theorem State.ctWrite_ct (k : Symbol) (e : CodeEntry) : (s.ctWrite k e).ct = Table.write noCode s.ct k.toNat e := rfl
@[simp] theorem State.ctWrite_tn (k : Symbol) (e : CodeEntry) : (s.ctWrite k e).tn = s.tn := rfl
@[simp] theorem State.ctWrite_acc (k : Symbol) (e : CodeEntry) : (s.ctWrite k e).acc = s.acc := rfl
@[simp] theorem State.ctWrite_nbits (k : Symbol) (e : CodeEntry) : (s.ctWrite k e).nbits = s.nbits := rfl
@[simp] theorem State.ctWrite_pad (k : Symbol) (e : CodeEntry) : (s.ctWrite k e).pad = s.pad := rfl
@[simp] theorem State.ctWrite_cur (k : Symbol) (e : CodeEntry) : (s.ctWrite k e).cur = s.cur := rfl
@[simp] theorem State.ctWrite_hold (k : Symbol) (e : CodeEntry) : (s.ctWrite k e).hold = s.hold := rfl
@[simp] theorem State.ctWrite_holdv (k : Symbol) (e : CodeEntry) : (s.ctWrite k e).holdv = s.holdv := rfl
@[simp] theorem State.ctWrite_buPad (k : Symbol) (e : CodeEntry) : (s.ctWrite k e).buPad = s.buPad := rfl
@[simp] theorem State.ctWrite_buNsym (k : Symbol) (e : CodeEntry) : (s.ctWrite k e).buNsym = s.buNsym := rfl
@[simp] theorem State.ctWrite_err (k : Symbol) (e : CodeEntry) : (s.ctWrite k e).err = s.err := rfl
@[simp] theorem State.ctWrite_errInfo (k : Symbol) (e : CodeEntry) : (s.ctWrite k e).errInfo = s.errInfo := rfl
@[simp] theorem State.ctWrite_pko (k : Symbol) (e : CodeEntry) : (s.ctWrite k e).pko = s.pko := rfl
@[simp] theorem State.ctWrite_syo (k : Symbol) (e : CodeEntry) : (s.ctWrite k e).syo = s.syo := rfl
@[simp] theorem State.ctWrite_rsp (k : Symbol) (e : CodeEntry) : (s.ctWrite k e).rsp = s.rsp := rfl
@[simp] theorem State.ctWrite_program (k : Symbol) (e : CodeEntry) : (s.ctWrite k e).program = s.program := rfl
@[simp] theorem State.ctWrite_pc (k : Symbol) (e : CodeEntry) : (s.ctWrite k e).pc = s.pc := rfl

/-! ### nodeWrite -/

@[simp] theorem State.nodeWrite_hist (i : NodeIndex) (n : TreeNode) : (s.nodeWrite i n).hist = s.hist := rfl
@[simp] theorem State.nodeWrite_ct (i : NodeIndex) (n : TreeNode) : (s.nodeWrite i n).ct = s.ct := rfl
@[simp] theorem State.nodeWrite_tn (i : NodeIndex) (n : TreeNode) : (s.nodeWrite i n).tn = Table.write noNode s.tn i.toNat n := rfl
@[simp] theorem State.nodeWrite_acc (i : NodeIndex) (n : TreeNode) : (s.nodeWrite i n).acc = s.acc := rfl
@[simp] theorem State.nodeWrite_nbits (i : NodeIndex) (n : TreeNode) : (s.nodeWrite i n).nbits = s.nbits := rfl
@[simp] theorem State.nodeWrite_pad (i : NodeIndex) (n : TreeNode) : (s.nodeWrite i n).pad = s.pad := rfl
@[simp] theorem State.nodeWrite_cur (i : NodeIndex) (n : TreeNode) : (s.nodeWrite i n).cur = s.cur := rfl
@[simp] theorem State.nodeWrite_hold (i : NodeIndex) (n : TreeNode) : (s.nodeWrite i n).hold = s.hold := rfl
@[simp] theorem State.nodeWrite_holdv (i : NodeIndex) (n : TreeNode) : (s.nodeWrite i n).holdv = s.holdv := rfl
@[simp] theorem State.nodeWrite_buPad (i : NodeIndex) (n : TreeNode) : (s.nodeWrite i n).buPad = s.buPad := rfl
@[simp] theorem State.nodeWrite_buNsym (i : NodeIndex) (n : TreeNode) : (s.nodeWrite i n).buNsym = s.buNsym := rfl
@[simp] theorem State.nodeWrite_err (i : NodeIndex) (n : TreeNode) : (s.nodeWrite i n).err = s.err := rfl
@[simp] theorem State.nodeWrite_errInfo (i : NodeIndex) (n : TreeNode) : (s.nodeWrite i n).errInfo = s.errInfo := rfl
@[simp] theorem State.nodeWrite_pko (i : NodeIndex) (n : TreeNode) : (s.nodeWrite i n).pko = s.pko := rfl
@[simp] theorem State.nodeWrite_syo (i : NodeIndex) (n : TreeNode) : (s.nodeWrite i n).syo = s.syo := rfl
@[simp] theorem State.nodeWrite_rsp (i : NodeIndex) (n : TreeNode) : (s.nodeWrite i n).rsp = s.rsp := rfl
@[simp] theorem State.nodeWrite_program (i : NodeIndex) (n : TreeNode) : (s.nodeWrite i n).program = s.program := rfl
@[simp] theorem State.nodeWrite_pc (i : NodeIndex) (n : TreeNode) : (s.nodeWrite i n).pc = s.pc := rfl

/-! ### histClear -/

@[simp] theorem State.histClear_hist : (s.histClear).hist = [] := rfl
@[simp] theorem State.histClear_ct : (s.histClear).ct = s.ct := rfl
@[simp] theorem State.histClear_tn : (s.histClear).tn = s.tn := rfl
@[simp] theorem State.histClear_acc : (s.histClear).acc = s.acc := rfl
@[simp] theorem State.histClear_nbits : (s.histClear).nbits = s.nbits := rfl
@[simp] theorem State.histClear_pad : (s.histClear).pad = s.pad := rfl
@[simp] theorem State.histClear_cur : (s.histClear).cur = s.cur := rfl
@[simp] theorem State.histClear_hold : (s.histClear).hold = s.hold := rfl
@[simp] theorem State.histClear_holdv : (s.histClear).holdv = s.holdv := rfl
@[simp] theorem State.histClear_buPad : (s.histClear).buPad = s.buPad := rfl
@[simp] theorem State.histClear_buNsym : (s.histClear).buNsym = s.buNsym := rfl
@[simp] theorem State.histClear_err : (s.histClear).err = s.err := rfl
@[simp] theorem State.histClear_errInfo : (s.histClear).errInfo = s.errInfo := rfl
@[simp] theorem State.histClear_pko : (s.histClear).pko = s.pko := rfl
@[simp] theorem State.histClear_syo : (s.histClear).syo = s.syo := rfl
@[simp] theorem State.histClear_rsp : (s.histClear).rsp = s.rsp := rfl
@[simp] theorem State.histClear_program : (s.histClear).program = s.program := rfl
@[simp] theorem State.histClear_pc : (s.histClear).pc = s.pc := rfl

/-! ### ctClear -/

@[simp] theorem State.ctClear_hist : (s.ctClear).hist = s.hist := rfl
@[simp] theorem State.ctClear_ct : (s.ctClear).ct = [] := rfl
@[simp] theorem State.ctClear_tn : (s.ctClear).tn = s.tn := rfl
@[simp] theorem State.ctClear_acc : (s.ctClear).acc = s.acc := rfl
@[simp] theorem State.ctClear_nbits : (s.ctClear).nbits = s.nbits := rfl
@[simp] theorem State.ctClear_pad : (s.ctClear).pad = s.pad := rfl
@[simp] theorem State.ctClear_cur : (s.ctClear).cur = s.cur := rfl
@[simp] theorem State.ctClear_hold : (s.ctClear).hold = s.hold := rfl
@[simp] theorem State.ctClear_holdv : (s.ctClear).holdv = s.holdv := rfl
@[simp] theorem State.ctClear_buPad : (s.ctClear).buPad = s.buPad := rfl
@[simp] theorem State.ctClear_buNsym : (s.ctClear).buNsym = s.buNsym := rfl
@[simp] theorem State.ctClear_err : (s.ctClear).err = s.err := rfl
@[simp] theorem State.ctClear_errInfo : (s.ctClear).errInfo = s.errInfo := rfl
@[simp] theorem State.ctClear_pko : (s.ctClear).pko = s.pko := rfl
@[simp] theorem State.ctClear_syo : (s.ctClear).syo = s.syo := rfl
@[simp] theorem State.ctClear_rsp : (s.ctClear).rsp = s.rsp := rfl
@[simp] theorem State.ctClear_program : (s.ctClear).program = s.program := rfl
@[simp] theorem State.ctClear_pc : (s.ctClear).pc = s.pc := rfl

/-! ### tnClear -/

@[simp] theorem State.tnClear_hist : (s.tnClear).hist = s.hist := rfl
@[simp] theorem State.tnClear_ct : (s.tnClear).ct = s.ct := rfl
@[simp] theorem State.tnClear_tn : (s.tnClear).tn = [] := rfl
@[simp] theorem State.tnClear_acc : (s.tnClear).acc = s.acc := rfl
@[simp] theorem State.tnClear_nbits : (s.tnClear).nbits = s.nbits := rfl
@[simp] theorem State.tnClear_pad : (s.tnClear).pad = s.pad := rfl
@[simp] theorem State.tnClear_cur : (s.tnClear).cur = s.cur := rfl
@[simp] theorem State.tnClear_hold : (s.tnClear).hold = s.hold := rfl
@[simp] theorem State.tnClear_holdv : (s.tnClear).holdv = s.holdv := rfl
@[simp] theorem State.tnClear_buPad : (s.tnClear).buPad = s.buPad := rfl
@[simp] theorem State.tnClear_buNsym : (s.tnClear).buNsym = s.buNsym := rfl
@[simp] theorem State.tnClear_err : (s.tnClear).err = s.err := rfl
@[simp] theorem State.tnClear_errInfo : (s.tnClear).errInfo = s.errInfo := rfl
@[simp] theorem State.tnClear_pko : (s.tnClear).pko = s.pko := rfl
@[simp] theorem State.tnClear_syo : (s.tnClear).syo = s.syo := rfl
@[simp] theorem State.tnClear_rsp : (s.tnClear).rsp = s.rsp := rfl
@[simp] theorem State.tnClear_program : (s.tnClear).program = s.program := rfl
@[simp] theorem State.tnClear_pc : (s.tnClear).pc = s.pc := rfl

/-! ### emitPko -/

@[simp] theorem State.emitPko_hist (b : Byte) : (s.emitPko b).hist = s.hist := rfl
@[simp] theorem State.emitPko_ct (b : Byte) : (s.emitPko b).ct = s.ct := rfl
@[simp] theorem State.emitPko_tn (b : Byte) : (s.emitPko b).tn = s.tn := rfl
@[simp] theorem State.emitPko_acc (b : Byte) : (s.emitPko b).acc = s.acc := rfl
@[simp] theorem State.emitPko_nbits (b : Byte) : (s.emitPko b).nbits = s.nbits := rfl
@[simp] theorem State.emitPko_pad (b : Byte) : (s.emitPko b).pad = s.pad := rfl
@[simp] theorem State.emitPko_cur (b : Byte) : (s.emitPko b).cur = s.cur := rfl
@[simp] theorem State.emitPko_hold (b : Byte) : (s.emitPko b).hold = s.hold := rfl
@[simp] theorem State.emitPko_holdv (b : Byte) : (s.emitPko b).holdv = s.holdv := rfl
@[simp] theorem State.emitPko_buPad (b : Byte) : (s.emitPko b).buPad = s.buPad := rfl
@[simp] theorem State.emitPko_buNsym (b : Byte) : (s.emitPko b).buNsym = s.buNsym := rfl
@[simp] theorem State.emitPko_err (b : Byte) : (s.emitPko b).err = s.err := rfl
@[simp] theorem State.emitPko_errInfo (b : Byte) : (s.emitPko b).errInfo = s.errInfo := rfl
@[simp] theorem State.emitPko_pko (b : Byte) : (s.emitPko b).pko = s.pko ++ [b] := rfl
@[simp] theorem State.emitPko_syo (b : Byte) : (s.emitPko b).syo = s.syo := rfl
@[simp] theorem State.emitPko_rsp (b : Byte) : (s.emitPko b).rsp = s.rsp := rfl
@[simp] theorem State.emitPko_program (b : Byte) : (s.emitPko b).program = s.program := rfl
@[simp] theorem State.emitPko_pc (b : Byte) : (s.emitPko b).pc = s.pc := rfl

/-! ### emitSyo -/

@[simp] theorem State.emitSyo_hist (c : Symbol) : (s.emitSyo c).hist = s.hist := rfl
@[simp] theorem State.emitSyo_ct (c : Symbol) : (s.emitSyo c).ct = s.ct := rfl
@[simp] theorem State.emitSyo_tn (c : Symbol) : (s.emitSyo c).tn = s.tn := rfl
@[simp] theorem State.emitSyo_acc (c : Symbol) : (s.emitSyo c).acc = s.acc := rfl
@[simp] theorem State.emitSyo_nbits (c : Symbol) : (s.emitSyo c).nbits = s.nbits := rfl
@[simp] theorem State.emitSyo_pad (c : Symbol) : (s.emitSyo c).pad = s.pad := rfl
@[simp] theorem State.emitSyo_cur (c : Symbol) : (s.emitSyo c).cur = s.cur := rfl
@[simp] theorem State.emitSyo_hold (c : Symbol) : (s.emitSyo c).hold = s.hold := rfl
@[simp] theorem State.emitSyo_holdv (c : Symbol) : (s.emitSyo c).holdv = s.holdv := rfl
@[simp] theorem State.emitSyo_buPad (c : Symbol) : (s.emitSyo c).buPad = s.buPad := rfl
@[simp] theorem State.emitSyo_buNsym (c : Symbol) : (s.emitSyo c).buNsym = s.buNsym := rfl
@[simp] theorem State.emitSyo_err (c : Symbol) : (s.emitSyo c).err = s.err := rfl
@[simp] theorem State.emitSyo_errInfo (c : Symbol) : (s.emitSyo c).errInfo = s.errInfo := rfl
@[simp] theorem State.emitSyo_pko (c : Symbol) : (s.emitSyo c).pko = s.pko := rfl
@[simp] theorem State.emitSyo_syo (c : Symbol) : (s.emitSyo c).syo = s.syo ++ [c] := rfl
@[simp] theorem State.emitSyo_rsp (c : Symbol) : (s.emitSyo c).rsp = s.rsp := rfl
@[simp] theorem State.emitSyo_program (c : Symbol) : (s.emitSyo c).program = s.program := rfl
@[simp] theorem State.emitSyo_pc (c : Symbol) : (s.emitSyo c).pc = s.pc := rfl

/-! ### emitSyoTimes -/

@[simp] theorem State.emitSyoTimes_hist (n : Nat) (c : Symbol) : (s.emitSyoTimes n c).hist = s.hist := rfl
@[simp] theorem State.emitSyoTimes_ct (n : Nat) (c : Symbol) : (s.emitSyoTimes n c).ct = s.ct := rfl
@[simp] theorem State.emitSyoTimes_tn (n : Nat) (c : Symbol) : (s.emitSyoTimes n c).tn = s.tn := rfl
@[simp] theorem State.emitSyoTimes_acc (n : Nat) (c : Symbol) : (s.emitSyoTimes n c).acc = s.acc := rfl
@[simp] theorem State.emitSyoTimes_nbits (n : Nat) (c : Symbol) : (s.emitSyoTimes n c).nbits = s.nbits := rfl
@[simp] theorem State.emitSyoTimes_pad (n : Nat) (c : Symbol) : (s.emitSyoTimes n c).pad = s.pad := rfl
@[simp] theorem State.emitSyoTimes_cur (n : Nat) (c : Symbol) : (s.emitSyoTimes n c).cur = s.cur := rfl
@[simp] theorem State.emitSyoTimes_hold (n : Nat) (c : Symbol) : (s.emitSyoTimes n c).hold = s.hold := rfl
@[simp] theorem State.emitSyoTimes_holdv (n : Nat) (c : Symbol) : (s.emitSyoTimes n c).holdv = s.holdv := rfl
@[simp] theorem State.emitSyoTimes_buPad (n : Nat) (c : Symbol) : (s.emitSyoTimes n c).buPad = s.buPad := rfl
@[simp] theorem State.emitSyoTimes_buNsym (n : Nat) (c : Symbol) : (s.emitSyoTimes n c).buNsym = s.buNsym := rfl
@[simp] theorem State.emitSyoTimes_err (n : Nat) (c : Symbol) : (s.emitSyoTimes n c).err = s.err := rfl
@[simp] theorem State.emitSyoTimes_errInfo (n : Nat) (c : Symbol) : (s.emitSyoTimes n c).errInfo = s.errInfo := rfl
@[simp] theorem State.emitSyoTimes_pko (n : Nat) (c : Symbol) : (s.emitSyoTimes n c).pko = s.pko := rfl
@[simp] theorem State.emitSyoTimes_syo (n : Nat) (c : Symbol) : (s.emitSyoTimes n c).syo = s.syo ++ List.replicate n c := rfl
@[simp] theorem State.emitSyoTimes_rsp (n : Nat) (c : Symbol) : (s.emitSyoTimes n c).rsp = s.rsp := rfl
@[simp] theorem State.emitSyoTimes_program (n : Nat) (c : Symbol) : (s.emitSyoTimes n c).program = s.program := rfl
@[simp] theorem State.emitSyoTimes_pc (n : Nat) (c : Symbol) : (s.emitSyoTimes n c).pc = s.pc := rfl

/-! ### emitRsp -/

@[simp] theorem State.emitRsp_hist (w : ResponseWord) : (s.emitRsp w).hist = s.hist := rfl
@[simp] theorem State.emitRsp_ct (w : ResponseWord) : (s.emitRsp w).ct = s.ct := rfl
@[simp] theorem State.emitRsp_tn (w : ResponseWord) : (s.emitRsp w).tn = s.tn := rfl
@[simp] theorem State.emitRsp_acc (w : ResponseWord) : (s.emitRsp w).acc = s.acc := rfl
@[simp] theorem State.emitRsp_nbits (w : ResponseWord) : (s.emitRsp w).nbits = s.nbits := rfl
@[simp] theorem State.emitRsp_pad (w : ResponseWord) : (s.emitRsp w).pad = s.pad := rfl
@[simp] theorem State.emitRsp_cur (w : ResponseWord) : (s.emitRsp w).cur = s.cur := rfl
@[simp] theorem State.emitRsp_hold (w : ResponseWord) : (s.emitRsp w).hold = s.hold := rfl
@[simp] theorem State.emitRsp_holdv (w : ResponseWord) : (s.emitRsp w).holdv = s.holdv := rfl
@[simp] theorem State.emitRsp_buPad (w : ResponseWord) : (s.emitRsp w).buPad = s.buPad := rfl
@[simp] theorem State.emitRsp_buNsym (w : ResponseWord) : (s.emitRsp w).buNsym = s.buNsym := rfl
@[simp] theorem State.emitRsp_err (w : ResponseWord) : (s.emitRsp w).err = s.err := rfl
@[simp] theorem State.emitRsp_errInfo (w : ResponseWord) : (s.emitRsp w).errInfo = s.errInfo := rfl
@[simp] theorem State.emitRsp_pko (w : ResponseWord) : (s.emitRsp w).pko = s.pko := rfl
@[simp] theorem State.emitRsp_syo (w : ResponseWord) : (s.emitRsp w).syo = s.syo := rfl
@[simp] theorem State.emitRsp_rsp (w : ResponseWord) : (s.emitRsp w).rsp = s.rsp ++ [w] := rfl
@[simp] theorem State.emitRsp_program (w : ResponseWord) : (s.emitRsp w).program = s.program := rfl
@[simp] theorem State.emitRsp_pc (w : ResponseWord) : (s.emitRsp w).pc = s.pc := rfl

/-! ### enterFault -/

@[simp] theorem State.enterFault_hist (f : FaultName) (i : BitVec 16) : (s.enterFault f i).hist = s.hist := rfl
@[simp] theorem State.enterFault_ct (f : FaultName) (i : BitVec 16) : (s.enterFault f i).ct = s.ct := rfl
@[simp] theorem State.enterFault_tn (f : FaultName) (i : BitVec 16) : (s.enterFault f i).tn = s.tn := rfl
@[simp] theorem State.enterFault_acc (f : FaultName) (i : BitVec 16) : (s.enterFault f i).acc = s.acc := rfl
@[simp] theorem State.enterFault_nbits (f : FaultName) (i : BitVec 16) : (s.enterFault f i).nbits = s.nbits := rfl
@[simp] theorem State.enterFault_pad (f : FaultName) (i : BitVec 16) : (s.enterFault f i).pad = s.pad := rfl
@[simp] theorem State.enterFault_cur (f : FaultName) (i : BitVec 16) : (s.enterFault f i).cur = s.cur := rfl
@[simp] theorem State.enterFault_hold (f : FaultName) (i : BitVec 16) : (s.enterFault f i).hold = s.hold := rfl
@[simp] theorem State.enterFault_holdv (f : FaultName) (i : BitVec 16) : (s.enterFault f i).holdv = s.holdv := rfl
@[simp] theorem State.enterFault_buPad (f : FaultName) (i : BitVec 16) : (s.enterFault f i).buPad = s.buPad := rfl
@[simp] theorem State.enterFault_buNsym (f : FaultName) (i : BitVec 16) : (s.enterFault f i).buNsym = s.buNsym := rfl
@[simp] theorem State.enterFault_err (f : FaultName) (i : BitVec 16) : (s.enterFault f i).err = faultCode f := rfl
@[simp] theorem State.enterFault_errInfo (f : FaultName) (i : BitVec 16) : (s.enterFault f i).errInfo = i := rfl
@[simp] theorem State.enterFault_pko (f : FaultName) (i : BitVec 16) : (s.enterFault f i).pko = s.pko := rfl
@[simp] theorem State.enterFault_syo (f : FaultName) (i : BitVec 16) : (s.enterFault f i).syo = s.syo := rfl
@[simp] theorem State.enterFault_rsp (f : FaultName) (i : BitVec 16) : (s.enterFault f i).rsp = s.rsp := rfl
@[simp] theorem State.enterFault_program (f : FaultName) (i : BitVec 16) : (s.enterFault f i).program = s.program := rfl
@[simp] theorem State.enterFault_pc (f : FaultName) (i : BitVec 16) : (s.enterFault f i).pc = s.pc := rfl

/-! ### advance -/

@[simp] theorem State.advance_hist : (s.advance).hist = s.hist := rfl
@[simp] theorem State.advance_ct : (s.advance).ct = s.ct := rfl
@[simp] theorem State.advance_tn : (s.advance).tn = s.tn := rfl
@[simp] theorem State.advance_acc : (s.advance).acc = s.acc := rfl
@[simp] theorem State.advance_nbits : (s.advance).nbits = s.nbits := rfl
@[simp] theorem State.advance_pad : (s.advance).pad = s.pad := rfl
@[simp] theorem State.advance_cur : (s.advance).cur = s.cur := rfl
@[simp] theorem State.advance_hold : (s.advance).hold = s.hold := rfl
@[simp] theorem State.advance_holdv : (s.advance).holdv = s.holdv := rfl
@[simp] theorem State.advance_buPad : (s.advance).buPad = s.buPad := rfl
@[simp] theorem State.advance_buNsym : (s.advance).buNsym = s.buNsym := rfl
@[simp] theorem State.advance_err : (s.advance).err = s.err := rfl
@[simp] theorem State.advance_errInfo : (s.advance).errInfo = s.errInfo := rfl
@[simp] theorem State.advance_pko : (s.advance).pko = s.pko := rfl
@[simp] theorem State.advance_syo : (s.advance).syo = s.syo := rfl
@[simp] theorem State.advance_rsp : (s.advance).rsp = s.rsp := rfl
@[simp] theorem State.advance_program : (s.advance).program = s.program := rfl
@[simp] theorem State.advance_pc : (s.advance).pc = s.pc + 1 := rfl

/-! ### resetRegisters -/

@[simp] theorem State.resetRegisters_hist : (s.resetRegisters).hist = [] := rfl
@[simp] theorem State.resetRegisters_ct : (s.resetRegisters).ct = [] := rfl
@[simp] theorem State.resetRegisters_tn : (s.resetRegisters).tn = [] := rfl
@[simp] theorem State.resetRegisters_acc : (s.resetRegisters).acc = 0#8 := rfl
@[simp] theorem State.resetRegisters_nbits : (s.resetRegisters).nbits = 0#3 := rfl
@[simp] theorem State.resetRegisters_pad : (s.resetRegisters).pad = 0#3 := rfl
@[simp] theorem State.resetRegisters_cur : (s.resetRegisters).cur = 0#9 := rfl
@[simp] theorem State.resetRegisters_hold : (s.resetRegisters).hold = 0#8 := rfl
@[simp] theorem State.resetRegisters_holdv : (s.resetRegisters).holdv = false := rfl
@[simp] theorem State.resetRegisters_buPad : (s.resetRegisters).buPad = 0#3 := rfl
@[simp] theorem State.resetRegisters_buNsym : (s.resetRegisters).buNsym = 0#32 := rfl
@[simp] theorem State.resetRegisters_err : (s.resetRegisters).err = 0#4 := rfl
@[simp] theorem State.resetRegisters_errInfo : (s.resetRegisters).errInfo = 0#16 := rfl
@[simp] theorem State.resetRegisters_pko : (s.resetRegisters).pko = s.pko := rfl
@[simp] theorem State.resetRegisters_syo : (s.resetRegisters).syo = s.syo := rfl
@[simp] theorem State.resetRegisters_rsp : (s.resetRegisters).rsp = s.rsp := rfl
@[simp] theorem State.resetRegisters_program : (s.resetRegisters).program = s.program := rfl
@[simp] theorem State.resetRegisters_pc : (s.resetRegisters).pc = s.pc := rfl

/-! ### Reads after the other updates -/

@[simp] theorem faulted_eq_false : faulted s = false ↔ s.err = 0#4 := by simp [faulted]

@[simp] theorem faulted_eq_true : faulted s = true ↔ s.err ≠ 0#4 := by simp [faulted]

end Sys2Proof.Machine
end

