-- ==== Sys2Proof/Laws/Table.lean ====
section
/-!
SUPPORT. The laws of the table memories: a read after a write, what a write leaves alone, the canonical form that every write keeps, and
that tables in canonical form with the same entries are the same list.
-/

namespace Sys2Proof.Machine

variable {α : Type} {d v : α} {m : Table α} {j k lo : Nat}

/-! ### Reads -/

@[simp] theorem Table.read_nil : Table.read d [] k = d := rfl

@[simp] theorem Table.erase_nil : Table.erase k ([] : Table α) = [] := rfl

theorem Table.erase_cons_same (h : j = k) : Table.erase k ((j, v) :: m) = Table.erase k m := by
  simp [Table.erase, h]

theorem Table.erase_cons_other (h : j ≠ k) : Table.erase k ((j, v) :: m) = (j, v) :: Table.erase k m := by
  simp [Table.erase, h]

@[simp] theorem Table.read_erase_same : Table.read d (Table.erase k m) k = d := by
  induction m with
  | nil => rfl
  | cons c m ih =>
    obtain ⟨i, u⟩ := c
    by_cases h : i = k
    · rw [Table.erase_cons_same h, ih]
    · rw [Table.erase_cons_other h, Table.read, if_neg h, ih]

theorem Table.read_erase_other (h : j ≠ k) : Table.read d (Table.erase k m) j = Table.read d m j := by
  induction m with
  | nil => rfl
  | cons c m ih =>
    obtain ⟨i, u⟩ := c
    by_cases hi : i = k
    · rw [Table.erase_cons_same hi, ih, Table.read, if_neg (hi ▸ Ne.symm h)]
    · rw [Table.erase_cons_other hi, Table.read, Table.read, ih]

theorem Table.read_insert_other (h : j ≠ k) : Table.read d (Table.insert k v m) j = Table.read d m j := by
  induction m with
  | nil => simp [Table.insert, Table.read, Ne.symm h]
  | cons c m ih =>
    obtain ⟨i, u⟩ := c
    by_cases hk : k < i
    · simp [Table.insert, Table.read, hk, Ne.symm h]
    · simp [Table.insert, Table.read, hk, ih]

/-- An index that the list does not hold reads as the inserted entry after an insertion. -/
theorem Table.read_insert_same (h : ∀ c ∈ m, c.1 ≠ k) : Table.read d (Table.insert k v m) k = v := by
  induction m with
  | nil => simp [Table.insert, Table.read]
  | cons c m ih =>
    obtain ⟨i, u⟩ := c
    have hi : i ≠ k := h (i, u) (by simp)
    by_cases hk : k < i
    · simp [Table.insert, Table.read, hk]
    · simp [Table.insert, Table.read, hk, hi, ih fun c hc => h c (by simp [hc])]

theorem Table.mem_erase {c : Nat × α} : c ∈ Table.erase k m ↔ c ∈ m ∧ c.1 ≠ k := by
  simp [Table.erase]

/-! ### Erasing and inserting -/

theorem Table.erase_erase : Table.erase k (Table.erase k m) = Table.erase k m := by
  simp [Table.erase, List.filter_filter]

theorem Table.erase_insert : Table.erase k (Table.insert k v m) = Table.erase k m := by
  induction m with
  | nil => exact Table.erase_cons_same rfl
  | cons c m ih =>
    obtain ⟨i, u⟩ := c
    by_cases hk : k < i
    · rw [Table.insert, if_pos hk, Table.erase_cons_same rfl]
    · rw [Table.insert, if_neg hk]
      by_cases hi : i = k
      · rw [Table.erase_cons_same hi, Table.erase_cons_same hi, ih]
      · rw [Table.erase_cons_other hi, Table.erase_cons_other hi, ih]

theorem Table.rising_mono (h : Table.rising k m = true) (hlo : lo ≤ k) : Table.rising lo m = true := by
  cases m with
  | nil => rfl
  | cons c m =>
    obtain ⟨i, u⟩ := c
    simp only [Table.rising, Bool.and_eq_true, decide_eq_true_eq] at h ⊢
    exact ⟨by omega, h.2⟩

theorem Table.rising_erase (h : Table.rising lo m = true) : Table.rising lo (Table.erase k m) = true := by
  induction m generalizing lo with
  | nil => rfl
  | cons c m ih =>
    obtain ⟨i, u⟩ := c
    simp only [Table.rising, Bool.and_eq_true, decide_eq_true_eq] at h
    by_cases hi : i = k
    · rw [Table.erase_cons_same hi]
      exact Table.rising_mono (ih h.2) (by omega)
    · simp [Table.erase_cons_other hi, Table.rising, h.1, ih h.2]

theorem Table.rising_insert (h : Table.rising lo m = true) (hk : ∀ c ∈ m, c.1 ≠ k) (hlo : lo ≤ k) :
    Table.rising lo (Table.insert k v m) = true := by
  induction m generalizing lo with
  | nil => simp [Table.insert, Table.rising, hlo]
  | cons c m ih =>
    obtain ⟨i, u⟩ := c
    simp only [Table.rising, Bool.and_eq_true, decide_eq_true_eq] at h
    have hi : i ≠ k := hk (i, u) (by simp)
    by_cases hlt : k < i
    · simp only [Table.insert, hlt, if_true, Table.rising, Bool.and_eq_true, decide_eq_true_eq]
      exact ⟨hlo, by omega, h.2⟩
    · simp only [Table.insert, hlt, if_false, Table.rising, Bool.and_eq_true, decide_eq_true_eq]
      exact ⟨h.1, ih h.2 (fun c hc => hk c (by simp [hc])) (by omega)⟩

theorem Table.mem_insert {c : Nat × α} : c ∈ Table.insert k v m ↔ c = (k, v) ∨ c ∈ m := by
  induction m with
  | nil => simp [Table.insert]
  | cons e m ih =>
    obtain ⟨i, u⟩ := e
    by_cases hk : k < i
    · simp [Table.insert, hk]
    · simp only [Table.insert, hk, if_false, List.mem_cons, ih]
      tauto

theorem Table.read_below (h : Table.rising lo m = true) (hk : k < lo) : Table.read d m k = d := by
  induction m generalizing lo with
  | nil => rfl
  | cons c m ih =>
    obtain ⟨i, u⟩ := c
    simp only [Table.rising, Bool.and_eq_true, decide_eq_true_eq] at h
    have : i ≠ k := by omega
    simp [Table.read, this, ih h.2 (by omega)]

/-- Two rising tables without default entries that read the same everywhere are the same list. -/
theorem Table.eq_of_read_eq {n : Table α} (hm : Table.rising lo m = true) (hn : Table.rising lo n = true)
    (dm : ∀ c ∈ m, c.2 ≠ d) (dn : ∀ c ∈ n, c.2 ≠ d) (h : ∀ k, Table.read d m k = Table.read d n k) : m = n := by
  induction m generalizing lo n with
  | nil =>
    cases n with
    | nil => rfl
    | cons c n =>
      obtain ⟨i, u⟩ := c
      have := h i
      simp only [Table.read, if_true] at this
      exact absurd this.symm (dn (i, u) (by simp))
  | cons c m ih =>
    obtain ⟨i, u⟩ := c
    cases n with
    | nil =>
      have := h i
      simp only [Table.read, if_true] at this
      exact absurd this (dm (i, u) (by simp))
    | cons c' n =>
      obtain ⟨i', u'⟩ := c'
      simp only [Table.rising, Bool.and_eq_true, decide_eq_true_eq] at hm hn
      have hu : u ≠ d := dm (i, u) (by simp)
      have hu' : u' ≠ d := dn (i', u') (by simp)
      have hii : i = i' := by
        rcases Nat.lt_trichotomy i i' with hlt | heq | hlt
        · have := h i
          rw [Table.read, if_pos rfl, Table.read, if_neg (by omega), Table.read_below hn.2 (by omega)] at this
          exact absurd this hu
        · exact heq
        · have := h i'
          rw [Table.read, if_neg (by omega), Table.read_below hm.2 (by omega), Table.read, if_pos rfl] at this
          exact absurd this.symm hu'
      subst hii
      have huu : u = u' := by simpa [Table.read] using h i
      subst huu
      congr 1
      refine ih hm.2 hn.2 (fun c hc => dm c (by simp [hc])) (fun c hc => dn c (by simp [hc])) fun k => ?_
      by_cases hk : i = k
      · subst hk; rw [Table.read_below hm.2 (by omega), Table.read_below hn.2 (by omega)]
      · simpa [Table.read, hk] using h k

variable [DecidableEq α]

/-- A read after a write to the same index gives the entry written. -/
@[simp] theorem Table.read_write_same : Table.read d (Table.write d m k v) k = v := by
  unfold Table.write
  split
  · next h => simp [h]
  · exact Table.read_insert_same fun c hc => (Table.mem_erase.mp hc).2

/-- A write leaves every other index alone. -/
theorem Table.read_write_other (h : j ≠ k) : Table.read d (Table.write d m k v) j = Table.read d m j := by
  unfold Table.write
  split
  · exact Table.read_erase_other h
  · rw [Table.read_insert_other h, Table.read_erase_other h]

theorem Table.read_write : Table.read d (Table.write d m k v) j = if j = k then v else Table.read d m j := by
  split
  · next h => simp [h]
  · next h => exact Table.read_write_other h

/-! ### Writing twice -/

/-- Only the last of two writes to one index counts. -/
@[simp] theorem Table.write_write {u : α} : Table.write d (Table.write d m k u) k v = Table.write d m k v := by
  unfold Table.write
  split <;> split <;> simp [Table.erase_erase, Table.erase_insert]

/-! ### The canonical form -/

@[simp] theorem Table.wf_nil {size : Nat} : Table.wf d size ([] : Table α) = true := rfl

/-- A write inside the table keeps the canonical form. -/
theorem Table.wf_write {size : Nat} (h : Table.wf d size m = true) (hk : k < size) :
    Table.wf d size (Table.write d m k v) = true := by
  simp only [Table.wf, Bool.and_eq_true, List.all_eq_true, decide_eq_true_eq] at h ⊢
  unfold Table.write
  split
  · exact ⟨Table.rising_erase h.1, fun c hc => h.2 c (Table.mem_erase.mp hc).1⟩
  · next hv =>
    refine ⟨Table.rising_insert (Table.rising_erase h.1) (fun c hc => (Table.mem_erase.mp hc).2) (Nat.zero_le _), ?_⟩
    intro c hc
    rcases Table.mem_insert.mp hc with rfl | hc
    · exact ⟨hk, hv⟩
    · exact h.2 c (Table.mem_erase.mp hc).1

/-! ### The three memories -/

variable (s : State)

@[simp] theorem State.histRead_histWrite (k j : Symbol) (v : Count) :
    (s.histWrite k v).histRead j = if j = k then v else s.histRead j := by
  simp [State.histRead, Table.read_write, BitVec.toNat_inj]

@[simp] theorem State.ctRead_ctWrite (k j : Symbol) (e : CodeEntry) :
    (s.ctWrite k e).ctRead j = if j = k then e else s.ctRead j := by
  simp [State.ctRead, Table.read_write, BitVec.toNat_inj]

@[simp] theorem State.nodeRead_nodeWrite (k j : NodeIndex) (n : TreeNode) :
    (s.nodeWrite k n).nodeRead j = if j = k then n else s.nodeRead j := by
  simp [State.nodeRead, Table.read_write, BitVec.toNat_inj]

@[simp] theorem State.histRead_histClear (k : Symbol) : s.histClear.histRead k = 0#32 := rfl

@[simp] theorem State.ctRead_ctClear (k : Symbol) : s.ctClear.ctRead k = noCode := rfl

@[simp] theorem State.nodeRead_tnClear (i : NodeIndex) : s.tnClear.nodeRead i = noNode := rfl

/-- Every memory operation keeps the canonical form. -/
theorem Memory.wf_histWrite (k : Symbol) (v : Count) (h : Memory.wf s = true) : Memory.wf (s.histWrite k v) = true := by
  simp only [Memory.wf, Bool.and_eq_true] at h ⊢
  exact ⟨⟨Table.wf_write h.1.1 k.isLt, h.1.2⟩, h.2⟩

theorem Memory.wf_ctWrite (k : Symbol) (e : CodeEntry) (h : Memory.wf s = true) : Memory.wf (s.ctWrite k e) = true := by
  simp only [Memory.wf, Bool.and_eq_true] at h ⊢
  exact ⟨⟨h.1.1, Table.wf_write h.1.2 k.isLt⟩, h.2⟩

theorem Memory.wf_nodeWrite (i : NodeIndex) (n : TreeNode) (h : Memory.wf s = true) : Memory.wf (s.nodeWrite i n) = true := by
  simp only [Memory.wf, Bool.and_eq_true] at h ⊢
  exact ⟨h.1, Table.wf_write h.2 i.isLt⟩

theorem Memory.wf_histClear (h : Memory.wf s = true) : Memory.wf s.histClear = true := by
  simp only [Memory.wf, Bool.and_eq_true] at h ⊢
  exact ⟨⟨rfl, h.1.2⟩, h.2⟩

theorem Memory.wf_ctClear (h : Memory.wf s = true) : Memory.wf s.ctClear = true := by
  simp only [Memory.wf, Bool.and_eq_true] at h ⊢
  exact ⟨⟨h.1.1, rfl⟩, h.2⟩

theorem Memory.wf_tnClear (h : Memory.wf s = true) : Memory.wf s.tnClear = true := by
  simp only [Memory.wf, Bool.and_eq_true] at h ⊢
  exact ⟨h.1, rfl⟩

theorem Memory.wf_reset : Memory.wf State.reset = true := rfl

theorem Memory.wf_resetRegisters : Memory.wf s.resetRegisters = true := rfl

end Sys2Proof.Machine
end

