-- ==== Sys2Proof/Laws/Operands.lean ====
section
/-!
SUPPORT. The laws of the operand forms: bit sequences and the fields that hold them, code entries, chunks and payload bytes.
-/

namespace Sys2Proof.Machine

/-! ### Sequences in a field -/

theorem fieldValue_lt (c : List Bool) : fieldValue c < 2 ^ c.length := by
  induction c with
  | nil => simp [fieldValue]
  | cons b c ih =>
    have : b.toNat ≤ 1 := Bool.toNat_le b
    simp only [fieldValue, List.length_cons, Nat.pow_succ]
    omega

theorem testBit_fieldValue (c : List Bool) (i : Nat) : (fieldValue c).testBit i = c.getD i false := by
  induction c generalizing i with
  | nil => simp [fieldValue]
  | cons b c ih =>
    cases i with
    | zero => cases b <;> simp [fieldValue, Nat.testBit_zero]
    | succ i =>
      have h : (b.toNat + 2 * fieldValue c) / 2 = fieldValue c := by cases b <;> simp; omega
      simp [fieldValue, Nat.testBit_succ, h, ih]

/-! ### Code entries (R23) -/

@[simp] theorem length_codeBits (e : CodeEntry) : (codeBits e).length = e.len.toNat := by simp [codeBits]

theorem getElem_codeBits (e : CodeEntry) (i : Nat) (h : i < (codeBits e).length) : (codeBits e)[i] = e.code.getLsbD i := by
  simp [codeBits]

@[simp] theorem codeBits_noCode : codeBits noCode = [] := rfl

@[simp] theorem codeEntry_valid (c : List Bool) : (codeEntry c).valid = true := rfl

theorem codeEntry_len {c : List Bool} (h : c.length ≤ 255) : (codeEntry c).len.toNat = c.length := by
  simp only [codeEntry, BitVec.toNat_ofNat]
  omega

theorem codeEntry_code {c : List Bool} (h : c.length ≤ 255) (i : Nat) : (codeEntry c).code.getLsbD i = c.getD i false := by
  simp only [codeEntry, BitVec.getLsbD_ofNat, testBit_fieldValue]
  by_cases hi : i < 255
  · simp [hi]
  · rw [List.getD_eq_default _ _ (by omega)]
    simp [hi]

/-- The code of an entry made from a sequence is that sequence. -/
theorem codeBits_codeEntry {c : List Bool} (h : c.length ≤ 255) : codeBits (codeEntry c) = c := by
  apply List.ext_getElem
  · simp [codeEntry_len h]
  · intro i h1 h2
    rw [getElem_codeBits, codeEntry_code h, List.getD_eq_getElem _ _ h2]

theorem codeEntry_ok {c : List Bool} (h : c.length ≤ 255) :
    (codeEntry c).code.toNat < 2 ^ (codeEntry c).len.toNat := by
  rw [codeEntry_len h]
  exact Nat.lt_of_le_of_lt (by simpa [codeEntry] using Nat.mod_le _ _) (fieldValue_lt c)

/-- A valid entry whose field is 0 at and above its length is the entry made from its code. -/
theorem codeEntry_codeBits {e : CodeEntry} (hv : e.valid = true) (h : e.code.toNat < 2 ^ e.len.toNat) :
    codeEntry (codeBits e) = e := by
  have hl : (codeBits e).length ≤ 255 := by simpa using Nat.le_of_lt_succ e.len.isLt
  have h1 : (codeEntry (codeBits e)).len = e.len := BitVec.eq_of_toNat_eq (by rw [codeEntry_len hl, length_codeBits])
  have h2 : (codeEntry (codeBits e)).code = e.code := by
    apply BitVec.eq_of_getLsbD_eq
    intro i _
    rw [codeEntry_code hl]
    by_cases hi : i < (codeBits e).length
    · rw [List.getD_eq_getElem _ _ hi, getElem_codeBits]
    · rw [List.getD_eq_default _ _ (by omega), BitVec.getLsbD]
      have : e.len.toNat ≤ i := by simpa using hi
      exact (Nat.testBit_lt_two_pow (Nat.lt_of_lt_of_le h (Nat.pow_le_pow_right (by omega) this))).symm
  rcases e with ⟨v, l, c⟩
  simp only at hv h1 h2
  subst hv
  exact (CodeEntry.mk.injEq ..).mpr ⟨rfl, h1, h2⟩

/-! ### Chunks (R75) -/

@[simp] theorem length_chunkBits (n : BitVec 8) (bits : BitVec 32) : (chunkBits n bits).length = n.toNat := by
  simp [chunkBits]

theorem getElem_chunkBits (n : BitVec 8) (bits : BitVec 32) (i : Nat) (h : i < (chunkBits n bits).length) :
    (chunkBits n bits)[i] = bits.getLsbD (n.toNat - 1 - i) := by
  simp [chunkBits]

theorem length_chunkBits_le (n : BitVec 8) (bits : BitVec 32) : (chunkBits n bits).length ≤ 255 := by
  simpa using Nat.le_of_lt_succ n.isLt

/-! ### Payload bytes (R52) -/

@[simp] theorem length_byteBits (b : Byte) : (byteBits b).length = 8 := by simp [byteBits]

theorem getElem_byteBits (b : Byte) (i : Nat) (h : i < (byteBits b).length) : (byteBits b)[i] = b.getLsbD (7 - i) := by
  simp [byteBits]

@[simp] theorem length_lastByteBits (pad : BitVec 3) (b : Byte) : (lastByteBits pad b).length = 8 - pad.toNat := by
  simp [lastByteBits]

/-- The bits of the last byte and its padding bits are the byte's bits. -/
theorem lastByteBits_append (pad : BitVec 3) (b : Byte) :
    lastByteBits pad b ++ (byteBits b).drop (8 - pad.toNat) = byteBits b := List.take_append_drop _ _

end Sys2Proof.Machine
end

