-- ==== Sys2Proof/Laws/Ops.lean ====
section
/-!
SUPPORT. What the shared operations answer: the discard check, fault entry, the walk step and the walk of several bits.
-/

namespace Sys2Proof.Machine

/-! ### The discard check (R197) -/

/-- With ERR = 0 a checked command answers the state its pseudocode leaves. -/
theorem runChecked_of_clear {body : State → Flow} {s : State} (h : s.err = 0#4) :
    runChecked body s = .next (Flow.state (body s)) := by
  simp [runChecked, faulted, h]

/-- With ERR ≠ 0 a checked command does nothing. -/
theorem runChecked_of_faulted {body : State → Flow} {s : State} (h : s.err ≠ 0#4) : runChecked body s = .next s := by
  simp [runChecked, faulted, h]

/-- A checked command always answers a next state. -/
theorem runChecked_next {body : State → Flow} {s t : State} (h : runChecked body s = .next t) :
    (s.err ≠ 0#4 ∧ t = s) ∨ (s.err = 0#4 ∧ t = Flow.state (body s)) := by
  by_cases he : s.err = 0#4
  · rw [runChecked_of_clear he] at h
    exact .inr ⟨he, (Host.Outcome.next.inj h).symm⟩
  · rw [runChecked_of_faulted he] at h
    exact .inl ⟨he, (Host.Outcome.next.inj h).symm⟩

@[simp] theorem runAlways_eq (body : State → Flow) (s : State) : runAlways body s = .next (Flow.state (body s)) := rfl

@[simp] theorem Flow.state_ok (s : State) : Flow.state (.ok s) = s := rfl

@[simp] theorem Flow.state_error (s : State) : Flow.state (.error s) = s := rfl

@[simp] theorem raise_eq (f : FaultName) (info : BitVec 16) (s : State) : raise f info s = .error (s.enterFault f info) := rfl

@[simp] theorem State.enterFault_histRead (s : State) (f : FaultName) (info : BitVec 16) (k : Symbol) :
    (s.enterFault f info).histRead k = s.histRead k := rfl

@[simp] theorem State.enterFault_ctRead (s : State) (f : FaultName) (info : BitVec 16) (k : Symbol) :
    (s.enterFault f info).ctRead k = s.ctRead k := rfl

@[simp] theorem State.enterFault_nodeRead (s : State) (f : FaultName) (info : BitVec 16) (i : NodeIndex) :
    (s.enterFault f info).nodeRead i = s.nodeRead i := rfl

/-- Every fault code that the HBE raises is nonzero (R191). -/
theorem faultCode_ne_zero (f : FaultName) : faultCode f ≠ 0#4 := by cases f <;> decide

/-! ### The walk step (R155) -/

/-- The step of a bit that finds its child. -/
theorem walk_of_step {s : State} {bit : Bool} {out : List Symbol} {next : NodeIndex}
    (h : WalkStep s.nodeRead s.cur bit out next) : walk bit s = .ok { s with syo := s.syo ++ out, cur := next } := by
  cases h with
  | inner child here edge there =>
    cases bit <;> simp only [Bool.false_eq_true, if_true, if_false] at edge <;>
      simp [walk, childPresent, childIndex, here, edge, there]
  | leaf child here edge there =>
    cases bit <;> simp only [Bool.false_eq_true, if_true, if_false] at edge <;>
      simp [walk, childPresent, childIndex, here, edge, there, State.emitSyo]

/-- The step of a bit that faults changes nothing but ERR and ERRINFO. -/
theorem walk_of_fault {s : State} {bit : Bool} {sub : BitVec 4} {idx : NodeIndex}
    (h : WalkFault s.nodeRead s.cur bit sub idx) :
    walk bit s = .error (s.enterFault .corruptPayload (payloadInfo sub idx)) := by
  cases bit <;>
    rcases h with ⟨h1, rfl, rfl⟩ | ⟨h1, h2, rfl, rfl⟩ | ⟨h1, h2, h3, rfl, rfl⟩ | ⟨h1, h2, h3, h4, rfl, rfl⟩ <;>
    simp_all [walk, childPresent, childIndex]

/-- A bit either faults or takes the walker on. -/
theorem walkFault_or_walkStep (node : NodeIndex → TreeNode) (cur : NodeIndex) (bit : Bool) :
    (∃ sub idx, WalkFault node cur bit sub idx) ∨ (∃ out next, WalkStep node cur bit out next) := by
  by_cases hv : (node cur).valid = true
  · by_cases hl : (node cur).leaf = true
    · exact .inl ⟨2#4, cur, .inr (.inl ⟨hv, hl, rfl, rfl⟩)⟩
    · have hl : (node cur).leaf = false := by simpa using hl
      by_cases hp : (if bit then (node cur).rp else (node cur).lp) = true
      · let child := if bit then (node cur).right else (node cur).left
        by_cases hc : (node child).valid = true
        · have edge : if bit then (node cur).rp = true ∧ (node cur).right = child
              else (node cur).lp = true ∧ (node cur).left = child := by
            cases bit <;> exact ⟨hp, rfl⟩
          by_cases hcl : (node child).leaf = true
          · exact .inr ⟨_, _, .leaf cur bit child ⟨hv, hl⟩ edge ⟨hc, hcl⟩⟩
          · exact .inr ⟨_, _, .inner cur bit child ⟨hv, hl⟩ edge ⟨hc, by simpa using hcl⟩⟩
        · exact .inl ⟨1#4, child, .inr (.inr (.inr ⟨hv, hl, hp, by simpa using hc, rfl, rfl⟩))⟩
      · exact .inl ⟨3#4, cur, .inr (.inr (.inl ⟨hv, hl, by simpa using hp, rfl, rfl⟩))⟩
  · exact .inl ⟨1#4, cur, .inl ⟨by simpa using hv, rfl, rfl⟩⟩

/-! ### The walk of several bits -/

@[simp] theorem walkBits_nil (s : State) : walkBits [] s = .ok s := rfl

theorem walkBits_append (l₁ l₂ : List Bool) (s : State) :
    walkBits (l₁ ++ l₂) s = (walkBits l₁ s).bind (walkBits l₂) := by
  induction l₁ generalizing s with
  | nil => rfl
  | cons b l₁ ih =>
    simp only [List.cons_append, walkBits]
    cases walk b s with
    | ok s' => exact ih s'
    | error t => rfl

/-- Bits that walk the tree give their symbols and move the walker, and change nothing else. -/
theorem walkBits_of_walks {s : State} {bits : List Bool} {out : List Symbol} {last : NodeIndex}
    (h : Walks s.nodeRead s.cur bits out last) : walkBits bits s = .ok { s with syo := s.syo ++ out, cur := last } := by
  generalize hn : s.nodeRead = node at h
  generalize hc : s.cur = cur at h
  induction h generalizing s with
  | done cur => subst hc; simp
  | step cur mid last bit bits out outs first rest ih =>
    subst hc hn
    rw [walkBits, walk_of_step first]
    refine (ih (s := { s with syo := s.syo ++ out, cur := mid }) rfl rfl).trans ?_
    simp

/-- Bits that walk the tree up to one that faults: the symbols of the earlier ones stay (R198). -/
theorem walkBits_of_fault {s : State} {bits rest : List Bool} {bit : Bool} {out : List Symbol} {mid idx : NodeIndex}
    {sub : BitVec 4} (h : Walks s.nodeRead s.cur bits out mid) (hf : WalkFault s.nodeRead mid bit sub idx) :
    walkBits (bits ++ bit :: rest) s =
      .error (State.enterFault { s with syo := s.syo ++ out, cur := mid } .corruptPayload (payloadInfo sub idx)) := by
  rw [walkBits_append, walkBits_of_walks h]
  have : walk bit { s with syo := s.syo ++ out, cur := mid } = _ := walk_of_fault (s := { s with syo := s.syo ++ out, cur := mid }) hf
  simp only [Except.bind, walkBits, this]

/-- What the walk of a sequence of bits can do: all of it walks the tree, or a bit faults after the ones before it walked. -/
theorem walkBits_cases (bits : List Bool) (s : State) :
    (∃ out last, Walks s.nodeRead s.cur bits out last ∧
      walkBits bits s = .ok { s with syo := s.syo ++ out, cur := last }) ∨
    (∃ before bit rest out mid sub idx, bits = before ++ bit :: rest ∧ Walks s.nodeRead s.cur before out mid ∧
      WalkFault s.nodeRead mid bit sub idx ∧
      walkBits bits s =
        .error (State.enterFault { s with syo := s.syo ++ out, cur := mid } .corruptPayload (payloadInfo sub idx))) := by
  suffices H : (∃ out last, Walks s.nodeRead s.cur bits out last) ∨
      (∃ before bit rest out mid sub idx, bits = before ++ bit :: rest ∧ Walks s.nodeRead s.cur before out mid ∧
        WalkFault s.nodeRead mid bit sub idx) by
    rcases H with ⟨out, last, h⟩ | ⟨before, bit, rest, out, mid, sub, idx, rfl, h, hf⟩
    · exact .inl ⟨out, last, h, walkBits_of_walks h⟩
    · exact .inr ⟨before, bit, rest, out, mid, sub, idx, rfl, h, hf, walkBits_of_fault h hf⟩
  generalize s.cur = cur
  induction bits generalizing cur with
  | nil => exact .inl ⟨[], cur, .done cur⟩
  | cons b bits ih =>
    rcases walkFault_or_walkStep s.nodeRead cur b with ⟨sub, idx, hf⟩ | ⟨out, next, hs⟩
    · exact .inr ⟨[], b, bits, [], cur, sub, idx, rfl, .done cur, hf⟩
    · rcases ih next with ⟨outs, last, h⟩ | ⟨before, bit, rest, outs, mid, sub, idx, rfl, h, hf⟩
      · exact .inl ⟨out ++ outs, last, .step _ _ _ _ _ _ _ hs h⟩
      · exact .inr ⟨b :: before, bit, rest, out ++ outs, mid, sub, idx, rfl, .step _ _ _ _ _ _ _ hs h, hf⟩

/-- A walk gives at most one symbol a bit. -/
theorem Walks.length_le {node : NodeIndex → TreeNode} {cur last : NodeIndex} {bits : List Bool} {out : List Symbol}
    (h : Walks node cur bits out last) : out.length ≤ bits.length := by
  induction h with
  | done cur => simp
  | step cur mid last bit bits out outs first rest ih =>
    have : out.length ≤ 1 := by cases first <;> simp
    simp only [List.length_append, List.length_cons]
    omega

/-- One walk after another. -/
theorem Walks.append {node : NodeIndex → TreeNode} {cur mid last : NodeIndex} {l₁ l₂ : List Bool} {o₁ o₂ : List Symbol}
    (h₁ : Walks node cur l₁ o₁ mid) (h₂ : Walks node mid l₂ o₂ last) : Walks node cur (l₁ ++ l₂) (o₁ ++ o₂) last := by
  induction h₁ with
  | done cur => exact h₂
  | step cur mid' _ bit bits out outs first rest ih =>
    rw [List.append_assoc]
    exact .step _ _ _ _ _ _ _ first (ih h₂)

end Sys2Proof.Machine
end

