-- ==== Sys2Proof/Laws/Packer.lean ====
section
/-!
SUPPORT. The bit buffer: what one turn of the packer's loop does to the pending bits, and the whole loop as cutting bytes off a sequence
(`spec/42_bit_packer.md` R121).
-/

namespace Sys2Proof.Machine

/-! ### Cutting bytes -/

@[simp] theorem fullBytes_nil : fullBytes [] = [] := rfl

@[simp] theorem leftover_nil : leftover [] = [] := rfl

theorem fullBytes_of_short {l : List Bool} (h : l.length < 8) : fullBytes l = [] := by
  match l, h with
  | [], _ | [_], _ | [_, _], _ | [_, _, _], _ | [_, _, _, _], _ | [_, _, _, _, _], _ | [_, _, _, _, _, _], _
  | [_, _, _, _, _, _, _], _ => rfl

theorem leftover_of_short {l : List Bool} (h : l.length < 8) : leftover l = l := by
  match l, h with
  | [], _ | [_], _ | [_, _], _ | [_, _, _], _ | [_, _, _, _], _ | [_, _, _, _, _], _ | [_, _, _, _, _, _], _
  | [_, _, _, _, _, _, _], _ => rfl

theorem cons_of_length_eight {g : List Bool} (h : g.length = 8) :
    ∃ b0 b1 b2 b3 b4 b5 b6 b7, g = [b0, b1, b2, b3, b4, b5, b6, b7] := by
  match g, h with
  | [b0, b1, b2, b3, b4, b5, b6, b7], _ => exact ⟨b0, b1, b2, b3, b4, b5, b6, b7, rfl⟩

/-- A group of eight bits at the front is the first byte. -/
theorem fullBytes_group {g l : List Bool} (h : g.length = 8) : fullBytes (g ++ l) = packByte g :: fullBytes l := by
  obtain ⟨b0, b1, b2, b3, b4, b5, b6, b7, rfl⟩ := cons_of_length_eight h
  rfl

theorem leftover_group {g l : List Bool} (h : g.length = 8) : leftover (g ++ l) = leftover l := by
  obtain ⟨b0, b1, b2, b3, b4, b5, b6, b7, rfl⟩ := cons_of_length_eight h
  rfl

/-- Induction on a sequence eight bits at a time. -/
theorem groups_induction {P : List Bool → Prop} (short : ∀ l, l.length < 8 → P l)
    (group : ∀ g l, g.length = 8 → P l → P (g ++ l)) (l : List Bool) : P l := by
  induction hn : l.length using Nat.strongRecOn generalizing l with
  | _ n ih =>
    by_cases h : l.length < 8
    · exact short l h
    · have := group (l.take 8) (l.drop 8) (by simp; omega) (ih (l.drop 8).length (by simp; omega) _ rfl)
      rwa [List.take_append_drop] at this

theorem length_fullBytes (l : List Bool) : (fullBytes l).length = l.length / 8 := by
  induction l using groups_induction with
  | short l h => rw [fullBytes_of_short h, Nat.div_eq_of_lt h]; rfl
  | group g l h ih => rw [fullBytes_group h]; simp [h, ih]

theorem length_leftover (l : List Bool) : (leftover l).length = l.length % 8 := by
  induction l using groups_induction with
  | short l h => rw [leftover_of_short h, Nat.mod_eq_of_lt h]
  | group g l h ih => rw [leftover_group h, ih]; simp [h]

/-- The bytes cut off a sequence do not depend on when they are cut off. -/
theorem fullBytes_append (l₁ l₂ : List Bool) : fullBytes (l₁ ++ l₂) = fullBytes l₁ ++ fullBytes (leftover l₁ ++ l₂) := by
  induction l₁ using groups_induction with
  | short l h => simp [fullBytes_of_short h, leftover_of_short h]
  | group g l h ih => rw [List.append_assoc, fullBytes_group h, fullBytes_group h, leftover_group h, ih]; rfl

theorem leftover_append (l₁ l₂ : List Bool) : leftover (l₁ ++ l₂) = leftover (leftover l₁ ++ l₂) := by
  induction l₁ using groups_induction with
  | short l h => simp [leftover_of_short h]
  | group g l h ih => rw [List.append_assoc, leftover_group h, leftover_group h, ih]

/-! ### Bytes and their bits -/

@[simp] theorem packByte_byteBits (b : Byte) : packByte (byteBits b) = b := by
  revert b
  decide

theorem byteBits_packByte {g : List Bool} (h : g.length = 8) : byteBits (packByte g) = g := by
  obtain ⟨b0, b1, b2, b3, b4, b5, b6, b7, rfl⟩ := cons_of_length_eight h
  revert b0 b1 b2 b3 b4 b5 b6 b7
  decide

/-! ### One turn of the loop -/

/-- R27 bit by bit: ACC is 0 below the pending bits. -/
theorem bufferOk_iff_bits (s : State) : BufferOk s ↔ ∀ i, i < 8 - s.nbits.toNat → s.acc.getLsbD i = false := by
  constructor
  · intro h i hi
    have := congrArg (fun x => x.testBit i) (h : s.acc.toNat % 2 ^ (8 - s.nbits.toNat) = 0)
    simpa [Nat.testBit_mod_two_pow, hi, BitVec.testBit_toNat] using this
  · intro h
    apply Nat.eq_of_testBit_eq
    intro i
    by_cases hi : i < 8 - s.nbits.toNat
    · simpa [Nat.testBit_mod_two_pow, hi, BitVec.testBit_toNat] using h i hi
    · simp [Nat.testBit_mod_two_pow, hi]

@[simp] theorem length_pendingBits (s : State) : (pendingBits s).length = s.nbits.toNat := by
  have := s.nbits.isLt
  simp [pendingBits]
  omega

/-- The pending bits and the zeros after them are the bits of ACC. -/
theorem byteBits_acc {s : State} (h : BufferOk s) :
    byteBits s.acc = pendingBits s ++ List.replicate (8 - s.nbits.toNat) false := by
  have hn := s.nbits.isLt
  apply List.ext_getElem
  · simp; omega
  · intro i h1 h2
    have h1 : i < 8 := by simpa using h1
    rw [List.getElem_append]
    split
    · simp [pendingBits]
    · next h3 =>
      rw [length_pendingBits] at h3
      rw [getElem_byteBits, (bufferOk_iff_bits s).mp h (7 - i) (by omega), List.getElem_replicate]

/-- One bit of a byte after a write to a bit of it. -/
theorem getLsbD_writeBit (v : BitVec 8) (i j : Nat) (b : Bool) (hj : j < 8) :
    (writeBit v i b).getLsbD j = if j = i then b else v.getLsbD j := by
  simp only [writeBit, BitVec.getLsbD_or, BitVec.getLsbD_and, BitVec.getLsbD_not, BitVec.getLsbD_shiftLeft,
    BitVec.getLsbD_setWidth, BitVec.getLsbD_ofBool, BitVec.getLsbD_one, hj, decide_true, Bool.true_and]
  rcases Nat.lt_trichotomy j i with h | h | h
  · simp [h, Nat.ne_of_lt h]
  · subst h; simp
  · have : j - i ≠ 0 := by omega
    simp [Nat.ne_of_gt h, Nat.not_lt_of_gt h, this]

/-- The bits of ACC after one is written at the end of the pending ones. -/
theorem byteBits_writeBit (a : BitVec 8) (n : BitVec 3) (b : Bool) :
    byteBits (writeBit a (7 - n.toNat) b) = (byteBits a).set n.toNat b := by
  have hn := n.isLt
  apply List.ext_getElem
  · simp
  · intro i h1 h2
    have h1 : i < 8 := by simpa using h1
    rw [getElem_byteBits, getLsbD_writeBit _ _ _ _ (by omega), List.getElem_set, getElem_byteBits]
    by_cases h : n.toNat = i
    · rw [if_pos (by omega), if_pos h]
    · rw [if_neg (by omega), if_neg h]

/-- A turn that does not complete a byte keeps the bit at the end of the pending ones. -/
theorem pushBit_short {s : State} (h : s.nbits.toNat < 7) (b : Bool) :
    (pushBit s b).pko = s.pko ∧ pendingBits (pushBit s b) = pendingBits s ++ [b] ∧
      (pushBit s b).nbits.toNat = s.nbits.toNat + 1 := by
  have hne : ¬ s.nbits.toNat + 1 = 8 := by omega
  have hm : (s.nbits.toNat + 1) % 8 = s.nbits.toNat + 1 := Nat.mod_eq_of_lt (by omega)
  refine ⟨by simp [pushBit, hne], ?_, by simp [pushBit, hne, hm]⟩
  simp only [pushBit, hne, if_false, pendingBits, BitVec.toNat_ofNat, Nat.reducePow, hm, byteBits_writeBit]
  rw [List.take_add_one, List.getElem?_set_self (by simp; omega), List.take_set_of_le (Nat.le_refl _)]
  rfl

/-- The turn that completes a byte emits it and empties the buffer. -/
theorem pushBit_full {s : State} (h : s.nbits.toNat = 7) (b : Bool) :
    (pushBit s b).pko = s.pko ++ [packByte (pendingBits s ++ [b])] ∧ (pushBit s b).nbits = 0#3 ∧ (pushBit s b).acc = 0#8 := by
  have he : s.nbits.toNat + 1 = 8 := by omega
  refine ⟨?_, by simp [pushBit, he], by simp [pushBit, he]⟩
  simp only [pushBit, he, if_true, State.emitPko_pko]
  congr 2
  rw [← packByte_byteBits (writeBit _ _ _), byteBits_writeBit, pendingBits, h,
    List.set_eq_take_append_cons_drop, if_pos (by simp)]
  congr 2

/-- A turn keeps the bit buffer invariant (R121 e). -/
theorem pushBit_bufferOk {s : State} (h : BufferOk s) (b : Bool) : BufferOk (pushBit s b) := by
  have hn := s.nbits.isLt
  rw [bufferOk_iff_bits] at h ⊢
  by_cases he : s.nbits.toNat + 1 = 8
  · simp [pushBit, he]
  · have hm : (s.nbits.toNat + 1) % 8 = s.nbits.toNat + 1 := Nat.mod_eq_of_lt (by omega)
    intro i hi
    simp only [pushBit, he, if_false, BitVec.toNat_ofNat, Nat.reducePow, hm] at hi ⊢
    rw [getLsbD_writeBit _ _ _ _ (by omega), if_neg (by omega)]
    exact h i (by omega)

/-! ### The loop -/

/-- The loop of R121 changes nothing but ACC, NBITS and PKO. -/
theorem pushBits_frame (bits : List Bool) (s : State) :
    { pushBits s bits with acc := s.acc, nbits := s.nbits, pko := s.pko } = s := by
  induction bits generalizing s with
  | nil => rfl
  | cons b bits ih =>
    have hb : { pushBit s b with acc := s.acc, nbits := s.nbits, pko := s.pko } = s := by
      unfold pushBit
      split <;> rfl
    calc { pushBits s (b :: bits) with acc := s.acc, nbits := s.nbits, pko := s.pko }
        = { { pushBits (pushBit s b) bits with acc := (pushBit s b).acc, nbits := (pushBit s b).nbits, pko := (pushBit s b).pko }
            with acc := s.acc, nbits := s.nbits, pko := s.pko } := rfl
      _ = { pushBit s b with acc := s.acc, nbits := s.nbits, pko := s.pko } := by rw [ih]
      _ = s := hb

/-- The loop of R121 keeps the bit buffer invariant. -/
theorem pushBits_bufferOk {s : State} (h : BufferOk s) (bits : List Bool) : BufferOk (pushBits s bits) := by
  induction bits generalizing s with
  | nil => exact h
  | cons b bits ih => exact ih (pushBit_bufferOk h b)

/-- The loop of R121 emits the complete bytes of the pending bits and the new ones, and keeps the rest pending. -/
theorem pushBits_spec (bits : List Bool) (s : State) :
    (pushBits s bits).pko = s.pko ++ fullBytes (pendingBits s ++ bits) ∧
      pendingBits (pushBits s bits) = leftover (pendingBits s ++ bits) := by
  induction bits generalizing s with
  | nil =>
    have : (pendingBits s ++ []).length < 8 := by simpa using s.nbits.isLt
    rw [fullBytes_of_short this, leftover_of_short this]
    simp [pushBits]
  | cons b bits ih =>
    have hn := s.nbits.isLt
    obtain ⟨ih1, ih2⟩ := ih (pushBit s b)
    by_cases h : s.nbits.toNat = 7
    · obtain ⟨h1, h2, _⟩ := pushBit_full h b
      have hp : pendingBits (pushBit s b) = [] := by simp [pendingBits, h2]
      have hg : (pendingBits s ++ [b]).length = 8 := by simp [h]
      rw [hp, List.nil_append] at ih1 ih2
      rw [List.append_cons, fullBytes_group hg, leftover_group hg]
      refine ⟨?_, ih2⟩
      rw [show pushBits s (b :: bits) = pushBits (pushBit s b) bits from rfl, ih1, h1, List.append_assoc]
      rfl
    · obtain ⟨h1, h2, _⟩ := pushBit_short (s := s) (by omega) b
      rw [h1, h2, List.append_assoc] at ih1
      rw [h2, List.append_assoc] at ih2
      exact ⟨ih1, ih2⟩

theorem pushBits_nbits (bits : List Bool) (s : State) :
    (pushBits s bits).nbits.toNat = (s.nbits.toNat + bits.length) % 8 := by
  rw [← length_pendingBits, (pushBits_spec bits s).2, length_leftover]
  simp

theorem pushBits_append (l₁ l₂ : List Bool) (s : State) : pushBits s (l₁ ++ l₂) = pushBits (pushBits s l₁) l₂ :=
  List.foldl_append

end Sys2Proof.Machine
end

