-- ==== Sys2Proof/Laws/Exec.lean ====
section
/-!
SUPPORT. The inversion of `exec`: every way a command can end, once (`exec_effect`). Claims about all commands are case analyses of it.
-/

namespace Sys2Proof.Machine

/-- How a command takes a state to the next one: one constructor for each path through its pseudocode. -/
inductive Effect : Instr → State → State → Prop where
  | nop (s : State) : Effect .nop s s
  | reset (s : State) : Effect .reset s s.resetRegisters
  | rdStatus (s : State) : Effect .rdStatus s (s.emitRsp (statusWord s.errInfo s.err))
  /-- The discard check (R197). -/
  | discarded (i : Instr) (s : State) (faulted : s.err ≠ 0#4) (unit : unitOf i ≠ .system) : Effect i s s
  | faClr (s : State) (clear : s.err = 0#4) : Effect .faClr s s.histClear
  | faPush (s : State) (k : Symbol) (clear : s.err = 0#4) (room : s.histRead k ≠ Config.maxCount) :
      Effect (.faPush k) s (s.histWrite k (s.histRead k + 1#32))
  | faPushFull (s : State) (k : Symbol) (clear : s.err = 0#4) (full : s.histRead k = Config.maxCount) :
      Effect (.faPush k) s (s.enterFault .countOverflow (byteInfo k))
  | faRd (s : State) (k : Symbol) (clear : s.err = 0#4) : Effect (.faRd k) s (s.emitRsp (s.histRead k))
  | ctClr (s : State) (clear : s.err = 0#4) : Effect .ctClr s s.ctClear
  | ctSet (s : State) (k : Symbol) (n : BitVec 8) (bits : BitVec 32) (clear : s.err = 0#4) :
      Effect (.ctSet k n bits) s (s.ctWrite k (codeEntry (chunkBits n bits)))
  | ctApp (s : State) (k : Symbol) (n : BitVec 8) (bits : BitVec 32) (clear : s.err = 0#4) (valid : (s.ctRead k).valid = true)
      (fits : (s.ctRead k).len.toNat + n.toNat ≤ Config.maxLen) :
      Effect (.ctApp k n bits) s (s.ctWrite k (codeEntry (codeBits (s.ctRead k) ++ chunkBits n bits)))
  | ctAppNoCode (s : State) (k : Symbol) (n : BitVec 8) (bits : BitVec 32) (clear : s.err = 0#4)
      (invalid : (s.ctRead k).valid = false) : Effect (.ctApp k n bits) s (s.enterFault .codeTable (tableInfo 1#4 k))
  | ctAppTooLong (s : State) (k : Symbol) (n : BitVec 8) (bits : BitVec 32) (clear : s.err = 0#4)
      (valid : (s.ctRead k).valid = true) (long : Config.maxLen < (s.ctRead k).len.toNat + n.toNat) :
      Effect (.ctApp k n bits) s (s.enterFault .codeTable (tableInfo 2#4 k))
  | bpPush (s : State) (k : Symbol) (clear : s.err = 0#4) (valid : (s.ctRead k).valid = true) :
      Effect (.bpPush k) s (pushBits s (codeBits (s.ctRead k)))
  | bpPushNoCode (s : State) (k : Symbol) (clear : s.err = 0#4) (invalid : (s.ctRead k).valid = false) :
      Effect (.bpPush k) s (s.enterFault .unknownSymbol (byteInfo k))
  | bpEnd (s : State) (clear : s.err = 0#4) (pending : 0 < s.nbits.toNat) :
      Effect .bpEnd s { s.emitPko s.acc with pad := BitVec.ofNat 3 (8 - s.nbits.toNat), acc := 0#8, nbits := 0#3 }
  | bpEndEmpty (s : State) (clear : s.err = 0#4) (none : s.nbits = 0#3) : Effect .bpEnd s { s with pad := 0#3 }
  | bpRdpad (s : State) (clear : s.err = 0#4) : Effect .bpRdpad s (s.emitRsp (padWord s.pad))
  | tnClr (s : State) (clear : s.err = 0#4) : Effect .tnClr s s.tnClear
  | tnWr (s : State) (idx : NodeIndex) (leaf lp rp : Bool) (left right : NodeIndex) (sym : Symbol) (clear : s.err = 0#4) :
      Effect (.tnWr idx leaf lp rp left right sym) s (s.nodeWrite idx ⟨true, leaf, lp, rp, left, right, sym⟩)
  | buCfg (s : State) (pad : BitVec 3) (nsym : BitVec 32) (clear : s.err = 0#4) :
      Effect (.buCfg pad nsym) s { s with buPad := pad, buNsym := nsym }
  | buByteFirst (s : State) (b : Byte) (clear : s.err = 0#4) (none : s.holdv = false) :
      Effect (.buByte b) s { s with hold := b, holdv := true }
  | buByte (s : State) (b : Byte) (out : List Symbol) (last : NodeIndex) (clear : s.err = 0#4) (held : s.holdv = true)
      (walked : Walks s.nodeRead s.cur (byteBits s.hold) out last) :
      Effect (.buByte b) s { s with syo := s.syo ++ out, cur := last, hold := b, holdv := true }
  | buByteFault (s : State) (b : Byte) (before rest : List Bool) (bit : Bool) (out : List Symbol) (mid idx : NodeIndex)
      (sub : BitVec 4) (clear : s.err = 0#4) (held : s.holdv = true) (bits : byteBits s.hold = before ++ bit :: rest)
      (walked : Walks s.nodeRead s.cur before out mid) (fault : WalkFault s.nodeRead mid bit sub idx) :
      Effect (.buByte b) s
        (State.enterFault { s with syo := s.syo ++ out, cur := mid } .corruptPayload (payloadInfo sub idx))
  | buEnd (s : State) (out : List Symbol) (clear : s.err = 0#4) (held : s.holdv = true)
      (walked : Walks s.nodeRead s.cur (lastByteBits s.buPad s.hold) out Config.root) :
      Effect .buEnd s { s with syo := s.syo ++ out, cur := Config.root, hold := 0#8, holdv := false }
  | buEndMidPath (s : State) (out : List Symbol) (last : NodeIndex) (clear : s.err = 0#4) (held : s.holdv = true)
      (walked : Walks s.nodeRead s.cur (lastByteBits s.buPad s.hold) out last) (mid : last ≠ Config.root) :
      Effect .buEnd s
        (State.enterFault { s with syo := s.syo ++ out, cur := last, hold := 0#8, holdv := false } .corruptPayload
          (payloadInfo 4#4 last))
  | buEndFault (s : State) (before rest : List Bool) (bit : Bool) (out : List Symbol) (mid idx : NodeIndex) (sub : BitVec 4)
      (clear : s.err = 0#4) (held : s.holdv = true) (bits : lastByteBits s.buPad s.hold = before ++ bit :: rest)
      (walked : Walks s.nodeRead s.cur before out mid) (fault : WalkFault s.nodeRead mid bit sub idx) :
      Effect .buEnd s
        (State.enterFault { s with syo := s.syo ++ out, cur := mid } .corruptPayload (payloadInfo sub idx))
  | buEndPadding (s : State) (clear : s.err = 0#4) (none : s.holdv = false) (padding : s.buPad ≠ 0#3) :
      Effect .buEnd s (s.enterFault .corruptPayload (payloadInfo 5#4 0#9))
  | buEndNoRoot (s : State) (clear : s.err = 0#4) (none : s.holdv = false) (padding : s.buPad = 0#3)
      (invalid : (s.nodeRead Config.root).valid = false) :
      Effect .buEnd s (s.enterFault .corruptPayload (payloadInfo 1#4 Config.root))
  | buEndLeafRoot (s : State) (clear : s.err = 0#4) (none : s.holdv = false) (padding : s.buPad = 0#3)
      (valid : (s.nodeRead Config.root).valid = true) (leaf : (s.nodeRead Config.root).leaf = true) :
      Effect .buEnd s (s.emitSyoTimes s.buNsym.toNat (s.nodeRead Config.root).sym)
  | buEndInnerRoot (s : State) (clear : s.err = 0#4) (none : s.holdv = false) (padding : s.buPad = 0#3)
      (valid : (s.nodeRead Config.root).valid = true) (inner : (s.nodeRead Config.root).leaf = false) :
      Effect .buEnd s s

/-! ### The unpacker's commands on the walks of a payload -/

section
variable {s : State} {b : Byte} {out : List Symbol} {before rest : List Bool} {bit : Bool} {last mid idx : NodeIndex} {sub : BitVec 4}

theorem execBuByte_of_walks (h : s.err = 0#4) (held : s.holdv = true) (w : Walks s.nodeRead s.cur (byteBits s.hold) out last) :
    execBuByte b s = .next { s with syo := s.syo ++ out, cur := last, hold := b, holdv := true } := by
  rw [execBuByte, runChecked_of_clear h, if_pos held, walkBits_of_walks w]
  rfl

theorem execBuByte_of_fault (h : s.err = 0#4) (held : s.holdv = true) (bits : byteBits s.hold = before ++ bit :: rest)
    (w : Walks s.nodeRead s.cur before out mid) (f : WalkFault s.nodeRead mid bit sub idx) :
    execBuByte b s =
      .next (State.enterFault { s with syo := s.syo ++ out, cur := mid } .corruptPayload (payloadInfo sub idx)) := by
  rw [execBuByte, runChecked_of_clear h, if_pos held, bits, walkBits_of_fault w f]
  rfl

theorem execBuEnd_of_walks (h : s.err = 0#4) (held : s.holdv = true)
    (w : Walks s.nodeRead s.cur (lastByteBits s.buPad s.hold) out Config.root) :
    execBuEnd s = .next { s with syo := s.syo ++ out, cur := Config.root, hold := 0#8, holdv := false } := by
  rw [execBuEnd, runChecked_of_clear h, if_pos held, endPayload, walkBits_of_walks w]
  rfl

theorem execBuEnd_of_midPath (h : s.err = 0#4) (held : s.holdv = true)
    (w : Walks s.nodeRead s.cur (lastByteBits s.buPad s.hold) out last) (hl : last ≠ Config.root) :
    execBuEnd s =
      .next (State.enterFault { s with syo := s.syo ++ out, cur := last, hold := 0#8, holdv := false } .corruptPayload
        (payloadInfo 4#4 last)) := by
  rw [execBuEnd, runChecked_of_clear h, if_pos held, endPayload, walkBits_of_walks w]
  simp only [Except.bind, ne_eq, hl, not_false_eq_true, if_true, raise_eq, Flow.state_error]

theorem execBuEnd_of_fault (h : s.err = 0#4) (held : s.holdv = true)
    (bits : lastByteBits s.buPad s.hold = before ++ bit :: rest)
    (w : Walks s.nodeRead s.cur before out mid) (f : WalkFault s.nodeRead mid bit sub idx) :
    execBuEnd s =
      .next (State.enterFault { s with syo := s.syo ++ out, cur := mid } .corruptPayload (payloadInfo sub idx)) := by
  rw [execBuEnd, runChecked_of_clear h, if_pos held, endPayload, bits, walkBits_of_fault w f]
  rfl

theorem execBuEnd_of_empty (h : s.err = 0#4) (none : s.holdv = false) : execBuEnd s = .next (Flow.state (endEmpty s)) := by
  rw [execBuEnd, runChecked_of_clear h, if_neg (by simp [none])]

end

/-! ### The inversion -/

/-- A command outside the system group does nothing in the fault state (R197). -/
theorem exec_of_faulted {i : Instr} {s : State} (h : s.err ≠ 0#4) (hu : unitOf i ≠ .system) : exec i s = .next s := by
  cases i with
  | nop | reset | rdStatus => exact absurd rfl hu
  | _ => unfold exec; exact runChecked_of_faulted h

/-- Every command answers a next state, on one of the paths of `Effect`. -/
theorem exec_effect (i : Instr) (s : State) : ∃ t, exec i s = .next t ∧ Effect i s t := by
  by_cases hu : unitOf i = .system
  · cases i with
    | nop => exact ⟨_, rfl, .nop s⟩
    | reset => exact ⟨_, rfl, .reset s⟩
    | rdStatus => exact ⟨_, rfl, .rdStatus s⟩
    | _ => simp [unitOf] at hu
  by_cases h : s.err = 0#4
  case neg => exact ⟨s, exec_of_faulted h hu, .discarded i s h hu⟩
  cases i with
  | nop | reset | rdStatus => exact absurd rfl hu
  | faClr => exact ⟨_, by rw [exec, execFaClr, runChecked_of_clear h]; rfl, .faClr s h⟩
  | faPush k =>
    by_cases hk : s.histRead k = Config.maxCount
    · refine ⟨_, ?_, .faPushFull s k h hk⟩
      rw [exec, execFaPush, runChecked_of_clear h, if_pos hk]
      rfl
    · refine ⟨_, ?_, .faPush s k h hk⟩
      rw [exec, execFaPush, runChecked_of_clear h, if_neg hk]
      rfl
  | faRd k => exact ⟨_, by rw [exec, execFaRd, runChecked_of_clear h]; rfl, .faRd s k h⟩
  | ctClr => exact ⟨_, by rw [exec, execCtClr, runChecked_of_clear h]; rfl, .ctClr s h⟩
  | ctSet k n bits => exact ⟨_, by rw [exec, execCtSet, runChecked_of_clear h]; rfl, .ctSet s k n bits h⟩
  | ctApp k n bits =>
    cases hv : (s.ctRead k).valid
    · refine ⟨_, ?_, .ctAppNoCode s k n bits h hv⟩
      rw [exec, execCtApp, runChecked_of_clear h]
      simp only [hv, Bool.not_false, if_true, raise_eq, Flow.state_error]
    · by_cases hl : (s.ctRead k).len.toNat + n.toNat > Config.maxLen
      · refine ⟨_, ?_, .ctAppTooLong s k n bits h hv hl⟩
        rw [exec, execCtApp, runChecked_of_clear h]
        simp only [hv, hl, Bool.not_true, Bool.false_eq_true, if_false, if_true, raise_eq, Flow.state_error]
      · refine ⟨_, ?_, .ctApp s k n bits h hv (by omega)⟩
        rw [exec, execCtApp, runChecked_of_clear h]
        simp only [hv, hl, Bool.not_true, Bool.false_eq_true, if_false, Flow.state_ok]
  | bpPush k =>
    cases hv : (s.ctRead k).valid
    · refine ⟨_, ?_, .bpPushNoCode s k h hv⟩
      rw [exec, execBpPush, runChecked_of_clear h]
      simp only [hv, Bool.not_false, if_true, raise_eq, Flow.state_error]
    · refine ⟨_, ?_, .bpPush s k h hv⟩
      rw [exec, execBpPush, runChecked_of_clear h]
      simp only [hv, Bool.not_true, Bool.false_eq_true, if_false, Flow.state_ok]
  | bpEnd =>
    by_cases hn : s.nbits.toNat > 0
    · refine ⟨_, ?_, .bpEnd s h hn⟩
      rw [exec, execBpEnd, runChecked_of_clear h, if_pos hn]
      rfl
    · refine ⟨_, ?_, .bpEndEmpty s h (BitVec.eq_of_toNat_eq (by simp; omega))⟩
      rw [exec, execBpEnd, runChecked_of_clear h, if_neg hn]
      rfl
  | bpRdpad => exact ⟨_, by rw [exec, execBpRdpad, runChecked_of_clear h]; rfl, .bpRdpad s h⟩
  | tnClr => exact ⟨_, by rw [exec, execTnClr, runChecked_of_clear h]; rfl, .tnClr s h⟩
  | tnWr idx leaf lp rp left right sym =>
    exact ⟨_, by rw [exec, execTnWr, runChecked_of_clear h]; rfl, .tnWr s idx leaf lp rp left right sym h⟩
  | buCfg pad nsym => exact ⟨_, by rw [exec, execBuCfg, runChecked_of_clear h]; rfl, .buCfg s pad nsym h⟩
  | buByte b =>
    cases hv : s.holdv
    · refine ⟨_, ?_, .buByteFirst s b h hv⟩
      rw [exec, execBuByte, runChecked_of_clear h, if_neg (by simp [hv])]
      rfl
    · rcases walkBits_cases (byteBits s.hold) s with ⟨out, last, w, -⟩ | ⟨before, bit, rest, out, mid, sub, idx, bits, w, f, -⟩
      · exact ⟨_, execBuByte_of_walks h hv w, .buByte s b out last h hv w⟩
      · exact ⟨_, execBuByte_of_fault h hv bits w f, .buByteFault s b before rest bit out mid idx sub h hv bits w f⟩
  | buEnd =>
    cases hv : s.holdv
    · by_cases hp : s.buPad = 0#3
      · cases hr : (s.nodeRead Config.root).valid
        · refine ⟨_, ?_, .buEndNoRoot s h hv hp hr⟩
          rw [exec, execBuEnd_of_empty h hv, endEmpty, if_neg (by simp [hp])]
          simp only [hr, Bool.not_false, if_true, raise_eq, Flow.state_error]
        · cases hl : (s.nodeRead Config.root).leaf
          · refine ⟨_, ?_, .buEndInnerRoot s h hv hp hr hl⟩
            rw [exec, execBuEnd_of_empty h hv, endEmpty, if_neg (by simp [hp])]
            simp only [hr, hl, Bool.not_true, Bool.false_eq_true, if_false, Flow.state_ok]
          · refine ⟨_, ?_, .buEndLeafRoot s h hv hp hr hl⟩
            rw [exec, execBuEnd_of_empty h hv, endEmpty, if_neg (by simp [hp])]
            simp only [hr, hl, Bool.not_true, Bool.false_eq_true, if_false, if_true, Flow.state_ok]
      · refine ⟨_, ?_, .buEndPadding s h hv hp⟩
        rw [exec, execBuEnd_of_empty h hv, endEmpty, if_pos hp]
        rfl
    · rcases walkBits_cases (lastByteBits s.buPad s.hold) s with
        ⟨out, last, w, -⟩ | ⟨before, bit, rest, out, mid, sub, idx, bits, w, f, -⟩
      · by_cases hl : last = Config.root
        · subst hl
          exact ⟨_, execBuEnd_of_walks h hv w, .buEnd s out h hv w⟩
        · exact ⟨_, execBuEnd_of_midPath h hv w hl, .buEndMidPath s out last h hv w hl⟩
      · exact ⟨_, execBuEnd_of_fault h hv bits w f, .buEndFault s before rest bit out mid idx sub h hv bits w f⟩

/-- The path that a command's next state came by. -/
theorem effect_of_exec {i : Instr} {s t : State} (h : exec i s = .next t) : Effect i s t := by
  obtain ⟨t', h', e⟩ := exec_effect i s
  rw [h] at h'
  exact Host.Outcome.next.inj h' ▸ e

end Sys2Proof.Machine
end

