-- ==== Sys2Proof/Laws/PerInstr.lean ====
section
/-!
SUPPORT. Facts about each command as syntax, one lemma a constructor. Family `EncodesItsRow`: the word of a command matches the command's
row of the opcode map (`spec/30_encoding.md` R78).
-/

namespace Sys2Proof.Laws

/-- Masking an append masks its two parts. -/
theorem append_and_append {n m : Nat} (x a : BitVec n) (y b : BitVec m) : (x ++ y) &&& (a ++ b) = (x &&& a) ++ (y &&& b) := by
  apply BitVec.eq_of_getLsbD_eq
  intro i hi
  simp only [BitVec.getLsbD_and, BitVec.getLsbD_append]
  split <;> rfl

/-- The word of a command, under its row's mask, is its row's match. -/
def EncodesItsRow.Statement (i : Instr) : Prop := encode i &&& tableMask i = tableMatch i

/-- Format S under its mask. -/
theorem encodeS_and_mask (op sym : BitVec 8) : encodeS op sym &&& 0xFFFFFFFFFFFFFF00#64 = encodeS op 0#8 := by
  rw [show (0xFFFFFFFFFFFFFF00#64 : BitVec 64) = 0xFF#8 ++ 0xFFFFFFFFFFFF#48 ++ 0#8 from rfl, encodeS, append_and_append, append_and_append,
    show op &&& 0xFF#8 = op from BitVec.and_allOnes, show sym &&& 0#8 = 0#8 from BitVec.and_zero]
  rfl

/-- Format C under its mask. -/
theorem encodeC_and_mask (op sym n : BitVec 8) (bits : BitVec 32) :
    encodeC op sym n bits &&& 0xFF0000FF00000000#64 = encodeC op 0#8 0#8 0#32 := by
  rw [show (0xFF0000FF00000000#64 : BitVec 64) = 0xFF#8 ++ 0#8 ++ 0#8 ++ 0xFF#8 ++ 0#32 from rfl, encodeC]
  iterate 4 rw [append_and_append]
  rw [show op &&& 0xFF#8 = op from BitVec.and_allOnes, show sym &&& 0#8 = 0#8 from BitVec.and_zero,
    show n &&& 0#8 = 0#8 from BitVec.and_zero, show bits &&& 0#32 = 0#32 from BitVec.and_zero]
  rfl

theorem EncodesItsRow.nop : EncodesItsRow.Statement .nop := rfl

theorem EncodesItsRow.reset : EncodesItsRow.Statement .reset := rfl

theorem EncodesItsRow.rdStatus : EncodesItsRow.Statement .rdStatus := rfl

theorem EncodesItsRow.faClr : EncodesItsRow.Statement .faClr := rfl

theorem EncodesItsRow.faPush (sym : Symbol) : EncodesItsRow.Statement (.faPush sym) := encodeS_and_mask 0x11#8 sym

theorem EncodesItsRow.faRd (sym : Symbol) : EncodesItsRow.Statement (.faRd sym) := encodeS_and_mask 0x12#8 sym

theorem EncodesItsRow.ctClr : EncodesItsRow.Statement .ctClr := rfl

theorem EncodesItsRow.ctSet (sym : Symbol) (n : BitVec 8) (bits : BitVec 32) : EncodesItsRow.Statement (.ctSet sym n bits) := 
  encodeC_and_mask 0x21#8 sym n bits

theorem EncodesItsRow.ctApp (sym : Symbol) (n : BitVec 8) (bits : BitVec 32) : EncodesItsRow.Statement (.ctApp sym n bits) := 
  encodeC_and_mask 0x22#8 sym n bits

theorem EncodesItsRow.bpPush (sym : Symbol) : EncodesItsRow.Statement (.bpPush sym) := encodeS_and_mask 0x30#8 sym

theorem EncodesItsRow.bpEnd : EncodesItsRow.Statement .bpEnd := rfl

theorem EncodesItsRow.bpRdpad : EncodesItsRow.Statement .bpRdpad := rfl

theorem EncodesItsRow.tnClr : EncodesItsRow.Statement .tnClr := rfl

theorem EncodesItsRow.tnWr (idx : NodeIndex) (leaf : Bool) (lp : Bool) (rp : Bool) (left : NodeIndex) (right : NodeIndex) (sym : Symbol) : EncodesItsRow.Statement (.tnWr idx leaf lp rp left right sym) := by
  show encodeT 0x41#8 idx leaf lp rp left right sym &&& 0xFF1E00E00E00FF00#64 = 0x4100000000000000#64
  rw [show (0xFF1E00E00E00FF00#64 : BitVec 64) =
    0xFF#8 ++ 0#1 ++ 0#1 ++ 0#1 ++ 1#1 ++ (7#3 ++ 0#9) ++ (7#3 ++ 0#9) ++ (7#3 ++ 0#9) ++ 0xFF#8 ++ 0#8 from rfl, encodeT]
  iterate 12 rw [append_and_append]
  rw [show BitVec.ofBool leaf &&& 0#1 = 0#1 from BitVec.and_zero, show BitVec.ofBool lp &&& 0#1 = 0#1 from BitVec.and_zero,
    show BitVec.ofBool rp &&& 0#1 = 0#1 from BitVec.and_zero, show idx &&& 0#9 = 0#9 from BitVec.and_zero,
    show left &&& 0#9 = 0#9 from BitVec.and_zero, show right &&& 0#9 = 0#9 from BitVec.and_zero,
    show sym &&& 0#8 = 0#8 from BitVec.and_zero]
  rfl

theorem EncodesItsRow.buCfg (pad : BitVec 3) (nsym : BitVec 32) : EncodesItsRow.Statement (.buCfg pad nsym) := by
  show encodeB 0x50#8 pad nsym &&& 0xFFFFFF0000000000#64 = 0x5000000000000000#64
  rw [show (0xFFFFFF0000000000#64 : BitVec 64) = 0xFF#8 ++ 0xFFFF#16 ++ (0#5 ++ 0#3) ++ 0#32 from rfl, encodeB]
  iterate 4 rw [append_and_append]
  rw [show pad &&& 0#3 = 0#3 from BitVec.and_zero, show nsym &&& 0#32 = 0#32 from BitVec.and_zero]
  rfl

theorem EncodesItsRow.buByte (b : Byte) : EncodesItsRow.Statement (.buByte b) := encodeS_and_mask 0x51#8 b

theorem EncodesItsRow.buEnd : EncodesItsRow.Statement .buEnd := rfl

end Sys2Proof.Laws
end

