-- ==== Sys2Proof/Tests/Slice0.lean ====
section
/-!
SUPPORT. Tests of the HBE model. The expected values are those of `spec/95_test_vectors.md` (the row is named in each docstring) or hand
calculations from the rules named. The second half gives, for each obligation with hypotheses, states and operands that meet them.
-/

namespace Sys2Proof.Tests

open Sys2Proof.Machine

/-! ### Helpers -/

/-- The state an answer goes on from; the reset state where there is none. -/
def nextOf : Answer → State
  | .next t => t
  | .fault _ => State.reset
  | .refused _ => State.reset

/-- The next state of an answer, none where there is none. -/
def goesOn : Answer → Option State
  | .next t => some t
  | .fault _ => none
  | .refused _ => none

/-- The state after one command. -/
def after (i : Instr) (s : State) : State := nextOf (exec i s)

/-- The state after a few commands from a state. -/
def afterAll (is : List Instr) (s : State) : State := nextOf (execAll is s)

/-- The state before S3 to S6: a fault is recorded. -/
def faultedState : State := { State.reset with err := 3#4, errInfo := 0x007A#16 }

/-- A state with one code: symbol `k` has the code `c`. -/
def withCode (k : Symbol) (c : List Bool) : State := State.reset.ctWrite k (codeEntry c)

/-- The root with two leaf children `a` (left) and `b` (right). -/
def smallTree : Table TreeNode :=
  [(0, ⟨true, false, true, true, 1#9, 2#9, 0#8⟩), (1, ⟨true, true, false, false, 0#9, 0#9, 0x61#8⟩),
    (2, ⟨true, true, false, false, 0#9, 0#9, 0x62#8⟩)]

/-- The "hello" tree H of V2. -/
def treeH : Table TreeNode :=
  [(0, ⟨true, false, true, true, 1#9, 4#9, 0#8⟩), (1, ⟨true, false, true, true, 2#9, 3#9, 0#8⟩),
    (2, ⟨true, true, false, false, 0#9, 0#9, 0x6F#8⟩), (3, ⟨true, true, false, false, 0#9, 0#9, 0x65#8⟩),
    (4, ⟨true, false, true, true, 5#9, 6#9, 0#8⟩), (5, ⟨true, true, false, false, 0#9, 0#9, 0x68#8⟩),
    (6, ⟨true, true, false, false, 0#9, 0#9, 0x6C#8⟩)]

/-- The skewed tree S of P5. -/
def treeS : Table TreeNode :=
  [(0, ⟨true, false, true, true, 1#9, 2#9, 0#8⟩), (1, ⟨true, true, false, false, 0#9, 0#9, 0x61#8⟩),
    (2, ⟨true, false, true, true, 3#9, 4#9, 0#8⟩), (3, ⟨true, true, false, false, 0#9, 0#9, 0x62#8⟩),
    (4, ⟨true, false, true, true, 5#9, 6#9, 0#8⟩), (5, ⟨true, true, false, false, 0#9, 0#9, 0x63#8⟩),
    (6, ⟨true, true, false, false, 0#9, 0#9, 0x64#8⟩)]

/-- The root is the leaf `a`, as in U8 to U13. -/
def leafRoot : Table TreeNode := [(0, ⟨true, true, false, false, 0#9, 0#9, 0x61#8⟩)]

/-- An unpacker with a tree that holds a byte at the root. -/
def holding (tree : Table TreeNode) (b : Byte) (pad : BitVec 3) : State :=
  { State.reset with tn := tree, hold := b, holdv := true, buPad := pad }

/-! ### Well-formed commands: each check refuses an ill-formed one -/

/-- R74: `n` is at most 32. -/
theorem test_wf_refuses_chunk_too_long : (Instr.ctSet 1#8 33#8 0#32).wellFormed = false := by decide

/-- R74: no bit of `bits` at or above `n`. -/
theorem test_wf_refuses_stray_bits : (Instr.ctApp 1#8 2#8 4#32).wellFormed = false := by decide

/-- R76: a leaf has no left child. -/
theorem test_wf_refuses_leaf_with_left : (Instr.tnWr 0#9 true true false 1#9 0#9 0#8).wellFormed = false := by decide

/-- R76: a leaf has no right child. -/
theorem test_wf_refuses_leaf_with_right : (Instr.tnWr 0#9 true false true 0#9 1#9 0#8).wellFormed = false := by decide

/-- R76: an internal node has no symbol. -/
theorem test_wf_refuses_internal_symbol : (Instr.tnWr 0#9 false true true 1#9 2#9 0x41#8).wellFormed = false := by decide

/-- R76: an absent left child has index 0. -/
theorem test_wf_refuses_absent_left_index : (Instr.tnWr 0#9 false false true 1#9 1#9 0#8).wellFormed = false := by decide

/-- R76: an absent right child has index 0. -/
theorem test_wf_refuses_absent_right_index : (Instr.tnWr 0#9 false true false 1#9 1#9 0#8).wellFormed = false := by decide

/-- The extremes that R74 and R76 allow. -/
theorem test_wf_accepts_extremes :
    (Instr.ctSet 0xFF#8 32#8 0xFFFFFFFF#32).wellFormed = true ∧ (Instr.tnWr 511#9 false true true 511#9 511#9 0#8).wellFormed = true := by
  decide

/-! ### Decoding: words of the spec -/

/-- R72, the words of format Z in the opcode map R78. -/
theorem test_decode_formatZ :
    decode 0x0000000000000000#64 = .ok .nop ∧ decode 0x0100000000000000#64 = .ok .reset ∧
    decode 0x0200000000000000#64 = .ok .rdStatus ∧ decode 0x1000000000000000#64 = .ok .faClr ∧
    decode 0x2000000000000000#64 = .ok .ctClr ∧ decode 0x3100000000000000#64 = .ok .bpEnd ∧
    decode 0x3200000000000000#64 = .ok .bpRdpad ∧ decode 0x4000000000000000#64 = .ok .tnClr ∧
    decode 0x5200000000000000#64 = .ok .buEnd := by decide

/-- R73, format S: F1, F4, B1, U3. -/
theorem test_decode_formatS :
    decode 0x110000000000006C#64 = .ok (.faPush 0x6C#8) ∧ decode 0x12000000000000FF#64 = .ok (.faRd 0xFF#8) ∧
    decode 0x3000000000000068#64 = .ok (.bpPush 0x68#8) ∧ decode 0x510000000000009F#64 = .ok (.buByte 0x9F#8) := by decide

/-- R74, format C: T3, T4, T5. -/
theorem test_decode_formatC :
    decode 0x2102070000000033#64 = .ok (.ctSet 2#8 7#8 0x33#32) ∧
    decode 0x21412000DEADBEEF#64 = .ok (.ctSet 0x41#8 32#8 0xDEADBEEF#32) ∧
    decode 0x224108000000005A#64 = .ok (.ctApp 0x41#8 8#8 0x5A#32) := by decide

/-- R76, format T: N1, N3, N4, N6. -/
theorem test_decode_formatT :
    decode 0x4160000010040000#64 = .ok (.tnWr 0#9 false true true 1#9 4#9 0#8) ∧
    decode 0x4140000010000000#64 = .ok (.tnWr 0#9 false true false 1#9 0#9 0#8) ∧
    decode 0x4120000000010000#64 = .ok (.tnWr 0#9 false false true 0#9 1#9 0#8) ∧
    decode 0x4181FF00000000FF#64 = .ok (.tnWr 511#9 true false false 0#9 0#9 0xFF#8) := by decide

/-- R77, format B: U1, U2. -/
theorem test_decode_formatB :
    decode 0x5000000600000000#64 = .ok (.buCfg 6#3 0#32) ∧
    decode 0x50000007FFFFFFFF#64 = .ok (.buCfg 7#3 0xFFFFFFFF#32) := by decide

/-- The encoder on the same words (T4, N6, N7, U2). -/
theorem test_encode_words :
    encode (.ctSet 0x41#8 32#8 0xDEADBEEF#32) = 0x21412000DEADBEEF#64 ∧
    encode (.tnWr 511#9 true false false 0#9 0#9 0xFF#8) = 0x4181FF00000000FF#64 ∧
    encode (.tnWr 511#9 false true true 511#9 511#9 0#8) = 0x4161FF1FF1FF0000#64 ∧
    encode (.buCfg 7#3 0xFFFFFFFF#32) = 0x50000007FFFFFFFF#64 := by decide

/-- The assembler forms of R82 and the pseudo-command `CT_CODE` of R83 (N2, N3, N4, T3, T4 with T5). -/
theorem test_assembler_forms :
    encode (tnWrLeaf 2#9 0x6F#8) = 0x418002000000006F#64 ∧ encode (tnWrInt 0#9 (some 1#9) none) = 0x4140000010000000#64 ∧
    encode (tnWrInt 0#9 none (some 1#9)) = 0x4120000000010000#64 ∧
    encode (ctSetString 2#8 [false, true, true, false, false, true, true]) = 0x2102070000000033#64 ∧
    (ctCode 0x41#8 (chunkBits 32#8 0xDEADBEEF#32 ++ chunkBits 8#8 0x5A#32)).map encode =
      [0x21412000DEADBEEF#64, 0x224108000000005A#64] := by decide

/-- X1, X2: unassigned opcodes. -/
theorem test_illegal_opcode :
    decode 0x0300000000000000#64 = .error .unassignedOpcode ∧ decode 0x1300000000000000#64 = .error .unassignedOpcode ∧
    decode 0x4200000000000000#64 = .error .unassignedOpcode ∧ decode 0xFF00000000000000#64 = .error .unassignedOpcode := by decide

/-- X3, X8, X12, X15, X23, X25: a reserved bit of each format. -/
theorem test_illegal_reserved_bit :
    decode 0x0000000000000001#64 = .error .reservedBit ∧ decode 0x1100000000000100#64 = .error .reservedBit ∧
    decode 0x2100200100000000#64 = .error .reservedBit ∧ decode 0x4190000000000041#64 = .error .reservedBit ∧
    decode 0x5000010000000000#64 = .error .reservedBit ∧ decode 0x5200000000000001#64 = .error .reservedBit := by decide

/-- X10, X11, X13: format C. -/
theorem test_illegal_chunk :
    decode 0x2101210000000000#64 = .error .chunkTooLong ∧ decode 0x2101020000000004#64 = .error .chunkStrayBits ∧
    decode 0x22001F0080000000#64 = .error .chunkStrayBits := by decide

/-- X17 to X21: format T. -/
theorem test_illegal_node :
    decode 0x41C0000010000000#64 = .error .leafWithChild ∧ decode 0x41A0000000010000#64 = .error .leafWithChild ∧
    decode 0x4162000000000000#64 = .error .indexTooLarge ∧ decode 0x4140000000010000#64 = .error .absentChildIndex ∧
    decode 0x4160000010020041#64 = .error .internalWithSymbol := by decide

/-- X22: format B. -/
theorem test_illegal_padding : decode 0x5000000800000000#64 = .error .paddingTooLarge := by decide

/-- The odd but legal word `TN_WR 0, INT 32, 0` (part 2.6), read as a table word. -/
theorem test_decodeTableWord : decodeTableWord 64 0x4160000200000000 = some (.tnWr 0#9 false true true 32#9 0#9 0#8) := by decide

/-! ### Steps -/

/-- F1 through a step: the placed word is the one executed. -/
theorem test_step_runs_placed_word :
    goesOn (step (State.reset.withFetchWord 64 0x110000000000006C)) =
      goesOn (exec (.faPush 0x6C#8) { State.reset.withFetchWord 64 0x110000000000006C with pc := 1 }) := by decide

/-- X10: an illegal word records its opcode byte and the position moves on. -/
theorem test_step_illegal_word :
    (nextOf (step (State.reset.withFetchWord 64 0x2101210000000000))).err = 6#4 ∧
    (nextOf (step (State.reset.withFetchWord 64 0x2101210000000000))).errInfo = 0x0021#16 ∧
    (nextOf (step (State.reset.withFetchWord 64 0x2101210000000000))).pc = 1 := by decide

/-- S6: an illegal word in the fault state is dropped. -/
theorem test_step_illegal_word_dropped :
    goesOn (step (faultedState.withFetchWord 64 0x0300000000000000)) =
      some { faultedState.withFetchWord 64 0x0300000000000000 with pc := 1 } := by decide

/-- S7: in the fault state `RD_STATUS` with a reserved bit set is dropped too. -/
theorem test_step_only_exact_status_word :
    (nextOf (step (faultedState.withFetchWord 64 0x0200000000000001))).rsp = [] ∧
    (nextOf (step (faultedState.withFetchWord 64 0x0200000000000000))).rsp = [0x007A0003#32] := by decide

/-! ### System commands -/

/-- S1. -/
theorem test_nop : goesOn (exec .nop { State.reset with nbits := 3#3 }) = some { State.reset with nbits := 3#3 } := by decide

/-- S9: pending bits and the held byte are dropped, nothing is emitted. -/
theorem test_reset_drops_pending :
    goesOn (exec .reset { State.reset with hist := [(1, 5#32)], acc := 0xA0#8, nbits := 3#3, hold := 9#8, holdv := true, pko := [7#8] }) =
      some { State.reset with pko := [7#8] } := by decide

/-- S8: RESET ends the fault state. -/
theorem test_reset_clears_fault : goesOn (exec .reset faultedState) = some State.reset := by decide

/-- S3. -/
theorem test_rdStatus : (after .rdStatus (after .rdStatus faultedState)).rsp = [0x007A0003#32, 0x007A0003#32] := by decide

/-! ### Frequency accumulator -/

/-- F7. -/
theorem test_faClr :
    goesOn (exec .faClr { State.reset with hist := [(0x61, 3#32), (0x62, 9#32)], nbits := 1#3 }) = some { State.reset with nbits := 1#3 } := by
  decide

/-- F2, and F3's symbol 0 next to it. -/
theorem test_faPush :
    (after (.faPush 0x6C#8) (after (.faPush 0x6C#8) State.reset)).histRead 0x6C#8 = 2#32 ∧
    (after (.faPush 0#8) { State.reset with hist := [(1, 1#32)] }).hist = [(0, 1#32), (1, 1#32)] := by decide

/-- F5, F6: the last count, then the overflow. -/
theorem test_faPush_overflow :
    (after (.faPush 7#8) { State.reset with hist := [(7, 0xFFFFFFFE#32)] }).histRead 7#8 = 0xFFFFFFFF#32 ∧
    goesOn (exec (.faPush 7#8) { State.reset with hist := [(7, 0xFFFFFFFF#32)] }) =
      some { State.reset with hist := [(7, 0xFFFFFFFF#32)], err := 5#4, errInfo := 0x0007#16 } := by decide

/-- F4, F8. -/
theorem test_faRd :
    (after (.faRd 0xFF#8) { State.reset with hist := [(0xFF, 5#32)] }).rsp = [5#32] ∧ (after (.faRd 0x61#8) State.reset).rsp = [0#32] := by
  decide

/-! ### Code table -/

/-- T11. -/
theorem test_ctClr :
    goesOn (exec .ctClr { withCode 5#8 [true] with nbits := 3#3, acc := 0xA0#8 }) = some { State.reset with nbits := 3#3, acc := 0xA0#8 } := by
  decide

/-- T3, T2: the first code bit is the most significant used one; the empty code is a code. -/
theorem test_ctSet :
    codeBits ((after (.ctSet 2#8 7#8 0x33#32) State.reset).ctRead 2#8) = [false, true, true, false, false, true, true] ∧
    (after (.ctSet 0x61#8 0#8 0#32) State.reset).ctRead 0x61#8 = ⟨true, 0#8, 0#255⟩ := by decide

/-- T6: the old code is replaced whole. -/
theorem test_ctSet_replaces :
    (after (.ctSet 0x61#8 1#8 0#32) (withCode 0x61#8 (List.replicate 33 true))).ctRead 0x61#8 = ⟨true, 1#8, 0#255⟩ := by decide

/-- A short case of T5: the chunk stands behind the code. -/
theorem test_ctApp :
    codeBits ((after (.ctApp 5#8 3#8 3#32) (withCode 5#8 [true, false])).ctRead 5#8) = [true, false, false, true, true] := by decide

/-- T7, T9: the two sub-causes. -/
theorem test_ctApp_faults :
    goesOn (exec (.ctApp 5#8 1#8 1#32) State.reset) = some { State.reset with err := 7#4, errInfo := 0x1005#16 } ∧
    (after (.ctApp 5#8 1#8 1#32) { State.reset with ct := [(5, ⟨true, 255#8, 0#255⟩)] }).errInfo = 0x2005#16 := by decide

/-! ### Bit packer -/

/-- B4: a code split across a byte boundary. -/
theorem test_bpPush :
    goesOn (exec (.bpPush 2#8) { withCode 2#8 [false, true, true, false, false, true, true] with acc := 0xA8#8, nbits := 5#3 }) =
      some { withCode 2#8 [false, true, true, false, false, true, true] with acc := 0x30#8, nbits := 4#3, pko := [0xAB#8] } := by decide

/-- B3, B6: the eighth bit empties the buffer; a symbol with no code faults. -/
theorem test_bpPush_boundary :
    goesOn (exec (.bpPush 1#8) { withCode 1#8 [true] with acc := 0xFE#8, nbits := 7#3 }) = some { withCode 1#8 [true] with pko := [0xFF#8] } ∧
    goesOn (exec (.bpPush 0x7A#8) { State.reset with nbits := 1#3 }) =
      some { State.reset with nbits := 1#3, err := 3#4, errInfo := 0x007A#16 } := by decide

/-- B8, B11: pending zero bits are still flushed. -/
theorem test_bpEnd :
    goesOn (exec .bpEnd { State.reset with acc := 0xA8#8, nbits := 5#3 }) = some { State.reset with pko := [0xA8#8], pad := 3#3 } ∧
    goesOn (exec .bpEnd { State.reset with nbits := 2#3 }) = some { State.reset with pko := [0#8], pad := 6#3 } := by decide

/-- B12: nothing pending. -/
theorem test_bpEnd_empty : goesOn (exec .bpEnd { State.reset with pad := 5#3 }) = some State.reset := by decide

/-- B14: the earlier run's value. -/
theorem test_bpRdpad : (after .bpRdpad { State.reset with pad := 5#3, acc := 0xA0#8, nbits := 3#3 }).rsp = [5#32] := by decide

/-! ### Tree memory -/

/-- N9. -/
theorem test_tnClr : goesOn (exec .tnClr (holding treeH 9#8 6#3)) = some (holding [] 9#8 6#3) := by decide

/-- N1, N7: a self-loop is storable. -/
theorem test_tnWr :
    (after (.tnWr 0#9 false true true 1#9 4#9 0#8) State.reset).nodeRead 0#9 = ⟨true, false, true, true, 1#9, 4#9, 0#8⟩ ∧
    (after (.tnWr 511#9 false true true 511#9 511#9 0#8) State.reset).tn = [(511, ⟨true, false, true, true, 511#9, 511#9, 0#8⟩)] := by
  decide

/-- N5: a childless internal node is written and valid. -/
theorem test_tnWr_childless :
    (after (.tnWr 0#9 false false false 0#9 0#9 0#8) { State.reset with tn := treeH }).nodeRead 0#9 =
      ⟨true, false, false, false, 0#9, 0#9, 0#8⟩ := by decide

/-! ### Bit unpacker -/

/-- U2. -/
theorem test_buCfg : goesOn (exec (.buCfg 7#3 0xFFFFFFFF#32) State.reset) = some { State.reset with buPad := 7#3, buNsym := 0xFFFFFFFF#32 } := by
  decide

/-- U4, with U3 before it: the first byte is only held. -/
theorem test_buByte :
    goesOn (exec (.buByte 0x9F#8) { State.reset with tn := treeH }) = some (holding treeH 0x9F#8 0#3) ∧
    goesOn (exec (.buByte 0#8) (holding treeH 0x9F#8 0#3)) = some { holding treeH 0#8 0#3 with syo := [0x68#8, 0x65#8, 0x6C#8, 0x6C#8] } := by
  decide

/-- The byte of P7 walked by a next byte: the symbols before the fault stay, and the old byte is still held (R198). -/
theorem test_buByte_fault :
    goesOn (exec (.buByte 1#8) (holding [(0, ⟨true, false, true, false, 1#9, 0#9, 0#8⟩), (1, ⟨true, true, false, false, 0#9, 0#9, 0x78#8⟩)] 0x20#8 0#3)) =
      some { holding [(0, ⟨true, false, true, false, 1#9, 0#9, 0#8⟩), (1, ⟨true, true, false, false, 0#9, 0#9, 0x78#8⟩)] 0x20#8 0#3 with
        syo := [0x78#8, 0x78#8], err := 4#4, errInfo := 0x3000#16 } := by decide

/-- U6, U8: the padding bits are not examined; a leaf root emits BU_NSYM symbols. -/
theorem test_buEnd :
    goesOn (exec .buEnd (holding treeH 0x3F#8 6#3)) = some { State.reset with tn := treeH, buPad := 6#3, syo := [0x6F#8] } ∧
    (after .buEnd { State.reset with tn := leafRoot, buNsym := 4#32 }).syo = [0x61#8, 0x61#8, 0x61#8, 0x61#8] := by decide

/-- U17, U13, U12: mid-path after the byte is dropped, a leaf root with payload, padding without payload. -/
theorem test_buEnd_faults :
    goesOn (exec .buEnd (holding treeS 0x5A#8 1#3)) =
      some { State.reset with tn := treeS, buPad := 1#3, cur := 2#9, syo := [0x61#8, 0x62#8, 0x63#8], err := 4#4, errInfo := 0x4002#16 } ∧
    goesOn (exec .buEnd (holding leafRoot 0#8 0#3)) = some { holding leafRoot 0#8 0#3 with err := 4#4, errInfo := 0x2000#16 } ∧
    (after .buEnd { State.reset with tn := leafRoot, buPad := 3#3 }).errInfo = 0x5000#16 := by decide

/-! ### Witnesses: states and operands that meet the hypotheses of the obligations, clause by clause at boundary values

`witness_<obligation>` names the obligation. A hypothesis `exec i s = .next t` or `step s = .next t` is met by computing `t`. -/

/-- The next state of a command that has one. -/
theorem exec_after {i : Instr} {s : State} (h : (goesOn (exec i s)).isSome = true) : exec i s = .next (after i s) := by
  unfold after
  cases hx : exec i s with
  | next t => rfl
  | fault r => exact nomatch r
  | refused r => simp [hx, goesOn] at h

/-- The next state of a list of commands that has one. -/
theorem execAll_afterAll {is : List Instr} {s : State} (h : (goesOn (execAll is s)).isSome = true) :
    execAll is s = .next (afterAll is s) := by
  unfold afterAll
  cases hx : execAll is s with
  | next t => rfl
  | fault r => exact nomatch r
  | refused r => simp [hx, goesOn] at h

/-- The next state of a step that has one. -/
theorem step_nextOf {s : State} (h : (goesOn (step s)).isSome = true) : step s = .next (nextOf (step s)) := by
  cases hx : step s with
  | next t => rfl
  | fault r => exact nomatch r
  | refused r => simp [hx, goesOn] at h

/-- DecodeInvertsEncode, at both ends of the chunk length and with the greatest indices. -/
theorem witness_DecodeInvertsEncode :
    (Instr.ctSet 0xFF#8 32#8 0xFFFFFFFF#32).wellFormed = true ∧ (Instr.ctApp 0#8 0#8 0#32).wellFormed = true ∧
    (Instr.tnWr 511#9 true false false 0#9 0#9 0xFF#8).wellFormed = true ∧
    (Instr.tnWr 0#9 false true true 511#9 511#9 0#8).wellFormed = true := by decide

/-- EncodeInvertsDecode, LegalWordMatchesItsTableRow. -/
theorem witness_EncodeInvertsDecode : decode 0x22051F007FFFFFFF#64 = .ok (.ctApp 5#8 31#8 0x7FFFFFFF#32) := by decide

/-- IllegalWordsAreTheListedOnesAndFault: one listed word of each kind (a) to (e), at the first illegal value of each field. -/
theorem witness_IllegalWords_kinds :
    listedIllegal 0x0300000000000000#64 ∧ listedIllegal 0x0000000000000001#64 ∧ listedIllegal 0x2101210000000000#64 ∧
    listedIllegal 0x2101020000000004#64 ∧ listedIllegal 0x4162000000000000#64 ∧ listedIllegal 0x41C0000010000000#64 ∧
    listedIllegal 0x4160000010020041#64 ∧ listedIllegal 0x4140000000010000#64 ∧ listedIllegal 0x5000000800000000#64 ∧
    ¬ listedIllegal 0x5000000700000000#64 := by
  refine ⟨?_, ?_, ?_, ?_, ?_, ?_, ?_, ?_, ?_, ?_⟩ <;> simp only [listedIllegal] <;> decide

/-- IllegalWordsAreTheListedOnesAndFault, the two clauses on a step. -/
theorem witness_IllegalWords_step :
    (∃ s : State, s.program[s.pc]? = some 0x0300000000000000#64 ∧ s.err = 0#4) ∧
    (∃ s : State, s.program[s.pc]? = some 0x0300000000000000#64 ∧ s.err ≠ 0#4) :=
  ⟨⟨State.reset.withFetchWord 64 0x0300000000000000, by decide⟩, ⟨faultedState.withFetchWord 64 0x0300000000000000, by decide⟩⟩

/-- ChunkIsTheCarriedBitsFirstBitMostSignificant, at lengths 0 and 32. -/
theorem witness_Chunk :
    ((0#8).toNat ≤ 32 ∧ (0#32).toNat < 2 ^ (0#8).toNat) ∧ ((32#8).toNat ≤ 32 ∧ (0xFFFFFFFF#32).toNat < 2 ^ (32#8).toNat) := by decide

/-- StepRunsTheDecodedCommand. -/
theorem witness_StepRunsTheDecodedCommand : ∃ (s : State) (w : CommandWord) (i : Instr),
    s.program[s.pc]? = some w ∧ decode w = .ok i :=
  ⟨State.reset.withFetchWord 64 0x5200000000000000, 0x5200000000000000#64, .buEnd, by decide⟩

/-- FaultStateDropsAllButStatusAndReset: RD_STATUS, RESET, another word. -/
theorem witness_FaultStateDrops : ∀ w ∈ [0x0200000000000000, 0x0100000000000000, 0x0200000000000001],
    (faultedState.withFetchWord 64 w).err ≠ 0#4 ∧
    (faultedState.withFetchWord 64 w).program[(faultedState.withFetchWord 64 w).pc]? = some (BitVec.ofNat 64 w) := by decide

/-- UnitCommandsAreDiscardedInTheFaultState. -/
theorem witness_UnitCommandsAreDiscarded : faultedState.err ≠ 0#4 ∧ unitOf .faClr ≠ .system ∧ unitOf .buEnd ≠ .system := by decide

/-- StepWithoutAWordKeepsAllState: the power-on state has no word. -/
theorem witness_StepWithoutAWord : State.reset.program[State.reset.pc]? = none := by decide

/-- PositionMovesByOnePerWord, ChannelsOnlyGrow, CurIsRootOrACopiedChildIndex: a step with a word and one without. -/
theorem witness_PositionMoves :
    (∃ s t : State, step s = .next t ∧ s.pc < s.program.length) ∧ (∃ s t : State, step s = .next t ∧ s.program.length ≤ s.pc) :=
  ⟨⟨State.reset.withFetchWord 64 0, _, step_nextOf (by decide), by decide⟩, ⟨State.reset, _, step_nextOf (by decide), by decide⟩⟩

/-- EmissionsOfACommandAreBounded: the greatest number of bytes that one command packs is reached. -/
theorem witness_EmissionsAreBounded :
    exec (.bpPush 5#8) { State.reset with ct := [(5, ⟨true, 255#8, 0#255⟩)], nbits := 7#3 } =
      .next (after (.bpPush 5#8) { State.reset with ct := [(5, ⟨true, 255#8, 0#255⟩)], nbits := 7#3 }) ∧
    (after (.bpPush 5#8) { State.reset with ct := [(5, ⟨true, 255#8, 0#255⟩)], nbits := 7#3 }).pko.length = 32 :=
  ⟨exec_after (by decide +kernel), by decide +kernel⟩

/-- FirstFaultIsKeptUntilReset: a word that keeps the fault, and RESET. -/
theorem witness_FirstFaultIsKept :
    (∃ s t : State, s.err ≠ 0#4 ∧ step s = .next t ∧ t.err ≠ 0#4) ∧ (∃ s t : State, s.err ≠ 0#4 ∧ step s = .next t ∧ t.err = 0#4) :=
  ⟨⟨faultedState.withFetchWord 64 0x1000000000000000, _, by decide, step_nextOf (by decide), by decide⟩,
    ⟨faultedState.withFetchWord 64 0x0100000000000000, _, by decide, step_nextOf (by decide), by decide⟩⟩

/-- CommandsRaiseOnlyTheirOwnFaults and FaultsArePreciseAtTheCommand: each command that faults, with each of its details. -/
theorem witness_CommandsRaise : ∀ c ∈ [
      (Instr.faPush 7#8, { State.reset with hist := [(7, 0xFFFFFFFF#32)] }, 0x0007#16),
      (.ctApp 5#8 1#8 1#32, State.reset, 0x1005#16),
      (.ctApp 5#8 1#8 1#32, { State.reset with ct := [(5, ⟨true, 255#8, 0#255⟩)] }, 0x2005#16),
      (.bpPush 0x7A#8, State.reset, 0x007A#16),
      (.buByte 0#8, holding [] 0#8 0#3, 0x1000#16),
      (.buByte 0#8, holding leafRoot 0#8 0#3, 0x2000#16),
      (.buByte 0#8, holding [(0, ⟨true, false, false, false, 0#9, 0#9, 0#8⟩)] 0#8 0#3, 0x3000#16),
      (.buEnd, holding [] 0#8 0#3, 0x1000#16),
      (.buEnd, holding leafRoot 0#8 0#3, 0x2000#16),
      (.buEnd, holding [(0, ⟨true, false, false, false, 0#9, 0#9, 0#8⟩)] 0#8 0#3, 0x3000#16),
      (.buEnd, holding treeS 0x5A#8 1#3, 0x4002#16),
      (.buEnd, { State.reset with buPad := 1#3 }, 0x5000#16)],
    c.2.1.err = 0#4 ∧ (goesOn (exec c.1 c.2.1)).isSome = true ∧ (after c.1 c.2.1).err ≠ 0#4 ∧ (after c.1 c.2.1).errInfo = c.2.2 := by
  decide

/-- A state with empty tables and an empty bit buffer, the walker at the root, meets the invariant if its fault record does. -/
theorem invariant_of_empty {s : State} (h : s.hist = []) (hc : s.ct = []) (ht : s.tn = []) (ha : s.acc = 0#8) (hh : s.hold = 0#8)
    (hcur : s.cur = 0#9) (hr : FaultRecordOk s.err s.errInfo) : Invariant s where
  memory := by simp [Memory.wf, h, hc, ht, Table.wf, Table.rising]
  code sym := by rw [State.ctRead, hc]; exact ⟨fun _ => rfl, Nat.zero_lt_one⟩
  node i := by
    rw [State.nodeRead, ht]
    exact ⟨fun _ => rfl, Bool.noConfusion, fun _ => rfl, fun _ => rfl, fun _ => rfl⟩
  buffer := by simp [BufferOk, ha]
  hold _ := hh
  walker _ _ := hcur
  record := hr

/-- StepKeepsTheInvariant: a state that meets the invariant and has a word to run. -/
theorem witness_StepKeepsTheInvariant : ∃ s t : State, Invariant s ∧ step s = .next t ∧ s.program ≠ [] :=
  ⟨State.reset.withFetchWord 64 0x110000000000006C, _, invariant_of_empty rfl rfl rfl rfl rfl rfl (.inl ⟨rfl, rfl⟩),
    step_nextOf (by decide), by decide⟩

/-- CommandsChangeOnlyTheirColumns: a command that runs, with a column outside its row. -/
theorem witness_CommandsChangeOnlyTheirColumns :
    exec .bpEnd { State.reset with nbits := 1#3, acc := 0x80#8 } = .next (after .bpEnd { State.reset with nbits := 1#3, acc := 0x80#8 }) ∧
    Column.hist ∉ writtenColumns .bpEnd ∧ Instr.bpEnd ≠ .reset := ⟨exec_after (by decide), by decide, by decide⟩

/-- UnitsShareNoStateButTheFaultRegisters: a command of each unit beside another unit. -/
theorem witness_UnitsShareNoState :
    (unitOf (.faPush 0#8) ≠ .system ∧ unitOf (.faPush 0#8) ≠ .bp) ∧ (unitOf (.bpPush 0#8) ≠ .system ∧ unitOf (.bpPush 0#8) ≠ .bu) ∧
    (unitOf .buEnd ≠ .system ∧ unitOf .buEnd ≠ .fa) := by decide

/-- LaterWordsDoNotAffectAStep: a state with a word to take. -/
theorem witness_LaterWords : ∃ s : State, s.pc < s.program.length := ⟨State.reset.withFetchWord 64 0, by decide⟩

/-- A state of a packing and an unpacking run meets the invariant. -/
theorem invariant_of_running {s : State} (h : s.hist = []) (hc : s.ct = []) (ht : s.tn = smallTree) (ha : BufferOk s) (hv : s.holdv = true)
    (hr : s.err = 0#4 ∧ s.errInfo = 0#16) : Invariant s where
  memory := by simp only [Memory.wf, h, hc, ht]; decide
  code sym := by rw [State.ctRead, hc]; exact ⟨fun _ => rfl, Nat.zero_lt_one⟩
  node i := by
    simp only [State.nodeRead, ht, smallTree, Table.read]
    split
    · simp [NodeOk]
    · split
      · simp [NodeOk]
      · split <;> simp [NodeOk, noNode]
  buffer := ha
  hold h := by simp [hv] at h
  walker _ h := by simp [hv] at h
  record := .inl hr

/-- ClosedRunsLeaveACleanState: pending bits in the packer and a held byte in the unpacker. -/
theorem witness_ClosedRuns : ∃ s : State, Invariant s ∧ s.err = 0#4 ∧ exec .bpEnd s = .next (after .bpEnd s) ∧
    exec .buEnd (after .bpEnd s) = .next (after .buEnd (after .bpEnd s)) ∧ (after .buEnd (after .bpEnd s)).err = 0#4 ∧
    s.nbits = 3#3 ∧ s.holdv = true :=
  ⟨{ holding smallTree 0xA5#8 0#3 with acc := 0xA0#8, nbits := 3#3 },
    invariant_of_running rfl rfl rfl rfl rfl ⟨rfl, rfl⟩, rfl, exec_after (by decide), exec_after (by decide), by decide, rfl, rfl⟩

/-- RepeatedWritesAndReadsAreIdempotent: a listed write that runs, and a state for the reads. -/
theorem witness_RepeatedWrites :
    exec (.ctSet 0x61#8 32#8 0xFFFFFFFF#32) State.reset = .next (after (.ctSet 0x61#8 32#8 0xFFFFFFFF#32) State.reset) ∧
    exec .faClr faultedState = .next (after .faClr faultedState) ∧ State.reset.err = 0#4 :=
  ⟨exec_after (by decide), exec_after (by decide), rfl⟩

/-- TablesWithTheSameEntriesAreEqual: two canonical states, each way to the same entries. -/
theorem witness_TablesWithTheSameEntries :
    Memory.wf (after (.tnWr 511#9 true false false 0#9 0#9 0#8) State.reset) = true ∧ Memory.wf (withCode 255#8 []) = true ∧
    (∀ k, (withCode 255#8 []).histRead k = State.reset.histRead k) := ⟨by decide, by decide, fun _ => rfl⟩

/-- RdStatusAnswersTheFaultRegisters: the invariant holds with no fault, and with the greatest sub-cause and index of code 4. -/
theorem witness_RdStatus : Invariant State.reset ∧ Invariant { State.reset with err := 4#4, errInfo := 0x51FF#16 } :=
  ⟨invariant_of_empty rfl rfl rfl rfl rfl rfl (.inl ⟨rfl, rfl⟩),
    invariant_of_empty rfl rfl rfl rfl rfl rfl (.inr (.inr (.inl ⟨5#4, 511#9, rfl, by decide, by decide, by decide⟩)))⟩

/-- FaClrZeroesEveryCount, FaRdAnswersTheCount, FaDumpAnswersEveryCount, CtClrEmptiesTheCodeTable, CtSetReplacesTheCode, BpRdpadAnswersThePaddingCount,
TnClrEmptiesTheTreeMemory, TnWrReplacesTheNode, BuCfgSetsPaddingAndSymbolCount: no fault is recorded. -/
theorem witness_no_fault : State.reset.err = 0#4 ∧ (holding treeH 0#8 7#3).err = 0#4 := by decide

/-- TnClrEmptiesTheTreeMemory, its clause on BU_END: after TN_CLR no byte is held and BU_PAD is 0. -/
theorem witness_TnClr : (after .tnClr { State.reset with tn := treeH }).holdv = false ∧
    (after .tnClr { State.reset with tn := treeH }).buPad = 0#3 := by decide

/-- FaPushCountsItsSymbolOnce: the last count with room, and the full one. -/
theorem witness_FaPush :
    (∃ s : State, s.err = 0#4 ∧ s.histRead 7#8 ≠ 0xFFFFFFFF#32 ∧ s.histRead 7#8 = 0xFFFFFFFE#32) ∧
    (∃ s : State, s.err = 0#4 ∧ s.histRead 7#8 = 0xFFFFFFFF#32) :=
  ⟨⟨{ State.reset with hist := [(7, 0xFFFFFFFE#32)] }, by decide⟩, ⟨{ State.reset with hist := [(7, 0xFFFFFFFF#32)] }, by decide⟩⟩

/-- CountsAreTheNumbersOfPushes: the pushes of "ell" from the power-on state. -/
theorem witness_CountsAreTheNumbersOfPushes :
    (∀ k, State.reset.histRead k = 0#32) ∧ Instr.reset ∉ faStr [0x65#8, 0x6C#8, 0x6C#8] ∧ Instr.faClr ∉ faStr [0x65#8, 0x6C#8, 0x6C#8] ∧
    execAll (faStr [0x65#8, 0x6C#8, 0x6C#8]) State.reset = .next (afterAll (faStr [0x65#8, 0x6C#8, 0x6C#8]) State.reset) :=
  ⟨fun _ => rfl, by decide, by decide, execAll_afterAll (by decide)⟩

/-- CountsDoNotDependOnTheOrderOfPushes: "el" and "le". -/
theorem witness_CountsDoNotDependOnTheOrder :
    (∀ k, (countedSymbols (faStr [0x65#8, 0x6C#8])).count k = (countedSymbols (faStr [0x6C#8, 0x65#8])).count k) ∧
    execAll (faStr [0x65#8, 0x6C#8]) State.reset = .next (afterAll (faStr [0x65#8, 0x6C#8]) State.reset) ∧
    execAll (faStr [0x6C#8, 0x65#8]) State.reset = .next (afterAll (faStr [0x6C#8, 0x65#8]) State.reset) ∧
    (afterAll (faStr [0x65#8, 0x6C#8]) State.reset).err = 0#4 ∧ (afterAll (faStr [0x6C#8, 0x65#8]) State.reset).err = 0#4 :=
  ⟨fun k => List.Perm.count_eq (List.Perm.swap _ _ _) k, execAll_afterAll (by decide), execAll_afterAll (by decide), by decide, by decide⟩

/-- CtAppLengthensTheCode: 224 and 31 bits fit, no code, 255 and 1 bits do not fit. -/
theorem witness_CtApp :
    (∃ s : State, s.err = 0#4 ∧ (s.ctRead 5#8).valid = true ∧ (s.ctRead 5#8).len.toNat + (31#8).toNat ≤ 255 ∧
      (s.ctRead 5#8).len = 224#8) ∧
    (∃ s : State, s.err = 0#4 ∧ (s.ctRead 5#8).valid = false) ∧
    (∃ s : State, s.err = 0#4 ∧ (s.ctRead 5#8).valid = true ∧ 255 < (s.ctRead 5#8).len.toNat + (1#8).toNat) :=
  ⟨⟨{ State.reset with ct := [(5, ⟨true, 224#8, 0#255⟩)] }, by decide⟩, ⟨State.reset, by decide⟩,
    ⟨{ State.reset with ct := [(5, ⟨true, 255#8, 0#255⟩)] }, by decide⟩⟩

/-- CtCodeLoadsTheWholeString: the empty string and the longest one. -/
theorem witness_CtCode : State.reset.err = 0#4 ∧ ([] : List Bool).length ≤ 255 ∧ (List.replicate 255 true).length ≤ 255 :=
  ⟨rfl, by decide, by rw [List.length_replicate]⟩

/-- BpPushPacksTheCodeBits: seven pending bits and a code, and a symbol with no code. -/
theorem witness_BpPush :
    (∃ s : State, s.err = 0#4 ∧ BufferOk s ∧ (s.ctRead 1#8).valid = true ∧ s.nbits = 7#3) ∧
    (∃ s : State, s.err = 0#4 ∧ (s.ctRead 1#8).valid = false) :=
  ⟨⟨{ withCode 1#8 [true] with acc := 0xFE#8, nbits := 7#3 }, rfl, rfl, by decide, rfl⟩, ⟨State.reset, by decide⟩⟩

/-- BpEndFlushesWithZeroPadding: one pending bit, seven, none. -/
theorem witness_BpEnd :
    (∃ s : State, s.err = 0#4 ∧ 0 < s.nbits.toNat ∧ BufferOk s ∧ s.nbits = 1#3) ∧
    (∃ s : State, s.err = 0#4 ∧ 0 < s.nbits.toNat ∧ BufferOk s ∧ s.nbits = 7#3) ∧ (∃ s : State, s.err = 0#4 ∧ s.nbits = 0#3) :=
  ⟨⟨{ State.reset with acc := 0x80#8, nbits := 1#3 }, rfl, by decide, rfl, rfl⟩,
    ⟨{ State.reset with acc := 0xFE#8, nbits := 7#3 }, rfl, by decide, rfl, rfl⟩, ⟨State.reset, by decide⟩⟩

/-- PackingRunEmitsThePaddedCodes: two pushes of a six-bit code with a count between them. -/
theorem witness_PackingRun : ∃ (is : List Instr) (s : State), s.err = 0#4 ∧ s.nbits = 0#3 ∧ s.acc = 0#8 ∧
    (∀ i ∈ is, inPackingRun i = true) ∧ execAll is s = .next (afterAll is s) ∧ (afterAll is s).err = 0#4 ∧
    (afterAll is s).pko ≠ [] :=
  ⟨[.bpPush 1#8, .faPush 1#8, .bpPush 1#8], withCode 1#8 [true, false, true, true, false, true], rfl, rfl, rfl, by decide,
    execAll_afterAll (by decide), by decide, by decide⟩

/-- A tree of 511 nodes, the most that a tree whose nodes have two children or none can have in TN. -/
def bigTree : HuffTree := (List.range 255).foldl (fun t k => .node (.leaf (BitVec.ofNat 8 k)) t) (.leaf 0#8)

/-- PreorderLoadStoresTheTree: the smallest tree, and the greatest. -/
theorem witness_PreorderLoad : State.reset.err = 0#4 ∧ (HuffTree.leaf 0#8).nodes ≤ 512 ∧ bigTree.nodes ≤ 512 ∧ bigTree.nodes = 511 := by
  decide +kernel

/-- A walk to the right in the small tree: each 1 bit gives `b` and returns to the root. -/
theorem smallTree_ones (pad : BitVec 3) (b : Byte) : ∀ n, Walks (holding smallTree b pad).nodeRead 0#9 (List.replicate n true) (List.replicate n 0x62#8) 0#9
  | 0 => .done _
  | n + 1 => .step 0#9 0#9 0#9 true _ [0x62#8] _
      (.leaf 0#9 true 2#9 ⟨rfl, rfl⟩ ⟨rfl, rfl⟩ ⟨rfl, rfl⟩) (smallTree_ones pad b n)

/-- BuByteWalksTheHeldByteAndHoldsItsOwn: nothing held, a byte that walks, a byte whose third bit faults. -/
theorem witness_BuByte :
    (∃ s : State, s.err = 0#4 ∧ s.holdv = false) ∧
    (∃ (s : State) (out : List Symbol) (last : NodeIndex), s.err = 0#4 ∧ s.holdv = true ∧
      Walks s.nodeRead s.cur (byteBits s.hold) out last) ∧
    (∃ (s : State) (before rest : List Bool) (bit : Bool) (out : List Symbol) (mid idx : NodeIndex) (sub : BitVec 4),
      s.err = 0#4 ∧ s.holdv = true ∧ byteBits s.hold = before ++ bit :: rest ∧ Walks s.nodeRead s.cur before out mid ∧
      WalkFault s.nodeRead mid bit sub idx ∧ before ≠ []) :=
  ⟨⟨State.reset, by decide⟩, ⟨holding smallTree 0xFF#8 0#3, _, _, rfl, rfl, smallTree_ones 0#3 0xFF#8 8⟩,
    ⟨holding [(0, ⟨true, false, true, false, 1#9, 0#9, 0#8⟩), (1, ⟨true, true, false, false, 0#9, 0#9, 0x78#8⟩)] 0x20#8 0#3,
      [false, false], [false, false, false, false, false], true, _, 0#9, 0#9, 3#4, rfl, rfl, by decide,
      .step 0#9 0#9 0#9 false _ _ _ (.leaf 0#9 false 1#9 ⟨rfl, rfl⟩ ⟨rfl, rfl⟩ ⟨rfl, rfl⟩)
        (.step 0#9 0#9 0#9 false _ _ _ (.leaf 0#9 false 1#9 ⟨rfl, rfl⟩ ⟨rfl, rfl⟩ ⟨rfl, rfl⟩) (.done 0#9)),
      .inr (.inr (.inl ⟨rfl, rfl, rfl, rfl, rfl⟩)), by decide⟩⟩

/-- BuEndWalksTheLastByte: all eight bits and only one bit to the root, a walk that ends inside the tree, a bit that faults. -/
theorem witness_BuEnd :
    (∃ (s : State) (out : List Symbol), s.err = 0#4 ∧ s.holdv = true ∧
      Walks s.nodeRead s.cur (lastByteBits s.buPad s.hold) out 0#9 ∧ s.buPad = 0#3) ∧
    (∃ (s : State) (out : List Symbol), s.err = 0#4 ∧ s.holdv = true ∧
      Walks s.nodeRead s.cur (lastByteBits s.buPad s.hold) out 0#9 ∧ s.buPad = 7#3) ∧
    (∃ (s : State) (out : List Symbol) (last : NodeIndex), s.err = 0#4 ∧ s.holdv = true ∧
      Walks s.nodeRead s.cur (lastByteBits s.buPad s.hold) out last ∧ last ≠ 0#9) ∧
    (∃ (s : State) (before rest : List Bool) (bit : Bool) (out : List Symbol) (mid idx : NodeIndex) (sub : BitVec 4),
      s.err = 0#4 ∧ s.holdv = true ∧ lastByteBits s.buPad s.hold = before ++ bit :: rest ∧ Walks s.nodeRead s.cur before out mid ∧
      WalkFault s.nodeRead mid bit sub idx) :=
  ⟨⟨holding smallTree 0xFF#8 0#3, _, rfl, rfl, smallTree_ones 0#3 0xFF#8 8, rfl⟩,
    ⟨holding smallTree 0xFF#8 7#3, _, rfl, rfl, smallTree_ones 7#3 0xFF#8 1, rfl⟩,
    ⟨holding treeS 0x80#8 7#3, _, 2#9, rfl, rfl,
      .step 0#9 2#9 2#9 true _ _ _ (.inner 0#9 true 2#9 ⟨rfl, rfl⟩ ⟨rfl, rfl⟩ ⟨rfl, rfl⟩) (.done 2#9), by decide⟩,
    ⟨holding leafRoot 0#8 0#3, [], List.replicate 7 false, false, _, 0#9, 0#9, 2#4, rfl, rfl, by decide, .done 0#9,
      .inr (.inl ⟨rfl, rfl, rfl, rfl⟩)⟩⟩

/-- BuEndOfAnEmptyPayload: each of its four cases. -/
theorem witness_BuEndOfAnEmptyPayload :
    (∃ s : State, s.err = 0#4 ∧ s.holdv = false ∧ s.buPad ≠ 0#3) ∧
    (∃ s : State, s.err = 0#4 ∧ s.holdv = false ∧ s.buPad = 0#3 ∧ (s.nodeRead 0#9).valid = false) ∧
    (∃ s : State, s.err = 0#4 ∧ s.holdv = false ∧ s.buPad = 0#3 ∧ (s.nodeRead 0#9).valid = true ∧ (s.nodeRead 0#9).leaf = true) ∧
    (∃ s : State, s.err = 0#4 ∧ s.holdv = false ∧ s.buPad = 0#3 ∧ (s.nodeRead 0#9).valid = true ∧ (s.nodeRead 0#9).leaf = false) :=
  ⟨⟨{ State.reset with buPad := 1#3 }, by decide⟩, ⟨State.reset, by decide⟩, ⟨{ State.reset with tn := leafRoot }, by decide⟩,
    ⟨{ State.reset with tn := smallTree }, by decide⟩⟩

/-- UnpackingRunGivesTheWalkOfItsPayload: two bytes of the small tree, seven bits of padding on the second. -/
theorem witness_UnpackingRun : ∃ (is : List Instr) (s : State), s.err = 0#4 ∧ s.holdv = false ∧ s.cur = 0#9 ∧
    (∀ i ∈ is, inUnpackingRun i = true) ∧ payloadBytes is ≠ [] ∧ execAll is s = .next (afterAll is s) ∧ (afterAll is s).err = 0#4 ∧
    exec .buEnd (afterAll is s) = .next (after .buEnd (afterAll is s)) ∧ (after .buEnd (afterAll is s)).err = 0#4 ∧
    (after .buEnd (afterAll is s)).syo.length = 9 :=
  ⟨[.buCfg 7#3 0#32, .buByte 0xA5#8, .buByte 0x80#8], { State.reset with tn := smallTree }, rfl, rfl, rfl, by decide, by decide,
    execAll_afterAll (by decide), by decide, exec_after (by decide), by decide, by decide⟩

/-- UnpackingRunGivesTheWalkOfItsPayload, its first clause where a BU_END would fault: the second byte ends in mid-path (P8). -/
theorem witness_UnpackingRun_midPath : ∃ (is : List Instr) (s : State), s.err = 0#4 ∧ s.holdv = false ∧ s.cur = 0#9 ∧
    (∀ i ∈ is, inUnpackingRun i = true) ∧ payloadBytes is ≠ [] ∧ execAll is s = .next (afterAll is s) ∧ (afterAll is s).err = 0#4 ∧
    (after .buEnd (afterAll is s)).errInfo = 0x4002#16 :=
  ⟨[.buCfg 1#3 0#32, .buByte 0#8, .buByte 0x5A#8], { State.reset with tn := treeS }, rfl, rfl, rfl, by decide, by decide,
    execAll_afterAll (by decide), by decide, by decide⟩

/-- PackedSymbolsUnpackToThemselves: a tree of two leaves, its codes in CT, the tree in TN, and nothing or one symbol to pack. -/
theorem witness_PackedSymbols :
    (∃ (l r : HuffTree) (syms : List Symbol) (s : State), s.err = 0#4 ∧ s.nbits = 0#3 ∧ s.acc = 0#8 ∧ syms ≠ [] ∧
      ∀ sym ∈ syms, (HuffTree.node l r).CodedIn s sym) ∧
    (∃ v : State, v.err = 0#4 ∧ v.holdv = false ∧ v.cur = 0#9 ∧
      (HuffTree.node (.leaf 0x61#8) (.leaf 0x62#8)).StoredAt v.nodeRead 0#9) :=
  ⟨⟨.leaf 0x61#8, .leaf 0x62#8, [0x62#8], withCode 0x62#8 [true], rfl, rfl, rfl, by decide, fun sym h => by
      obtain rfl := List.mem_singleton.mp h
      exact ⟨by decide, .goRight _ _ [] _ (.here _)⟩⟩,
    ⟨{ State.reset with tn := smallTree }, rfl, rfl, rfl, ⟨rfl, rfl, rfl, rfl⟩, ⟨rfl, rfl, rfl⟩, ⟨rfl, rfl, rfl⟩⟩⟩

/-- SingleSymbolStreamRoundTrips: the least and the greatest number of copies. -/
theorem witness_SingleSymbol :
    (0 < 2 ^ 32 ∧ 2 ^ 32 - 1 < 2 ^ 32) ∧
    (∃ s : State, s.err = 0#4 ∧ s.nbits = 0#3 ∧ (s.ctRead 0x61#8).valid = true ∧ (s.ctRead 0x61#8).len = 0#8) ∧
    (∃ v : State, v.err = 0#4 ∧ v.holdv = false ∧ (HuffTree.leaf 0x61#8).StoredAt v.nodeRead 0#9) :=
  ⟨by decide, ⟨withCode 0x61#8 [], by decide⟩, ⟨{ State.reset with tn := leafRoot }, rfl, rfl, rfl, rfl, rfl⟩⟩

end Sys2Proof.Tests
end

section
/-!
Settles O23: every command's pseudocode commutes with supplying more words at the end of the host's list, because none reads the list
(R21); taking the next word does too, as long as there is one.
-/

namespace Sys2Proof.Machine

/-! ### Changing the state under a command's pseudocode -/

/-- Change the state that a command's pseudocode goes on from or has ended in. -/
def mapFlow (f : State → State) : Flow → Flow
  | .ok s => .ok (f s)
  | .error s => .error (f s)

section
variable {f : State → State}

@[simp] theorem mapFlow_ok (s : State) : mapFlow f (.ok s) = .ok (f s) := rfl

@[simp] theorem mapFlow_error (s : State) : mapFlow f (.error s) = .error (f s) := rfl

@[simp] theorem state_mapFlow (x : Flow) : (mapFlow f x).state = f x.state := by cases x <;> rfl

/-- A change that the rest of the pseudocode commutes with can be made after it. -/
theorem mapFlow_bind {k : State → Flow} (hk : ∀ t, k (f t) = mapFlow f (k t)) (x : Flow) :
    (mapFlow f x).bind k = mapFlow f (x.bind k) := by
  cases x with
  | ok s => exact hk s
  | error t => rfl

/-- The discard check commutes with a change that keeps ERR, if the pseudocode does. -/
theorem runChecked_map {body : State → Flow} {s : State} (herr : (f s).err = s.err) (hbody : body (f s) = mapFlow f (body s)) :
    runChecked body (f s) = mapAnswer f (runChecked body s) := by
  by_cases h : s.err = 0#4
  · rw [runChecked_of_clear h, runChecked_of_clear (herr.trans h), hbody, state_mapFlow]
    rfl
  · rw [runChecked_of_faulted h, runChecked_of_faulted (herr ▸ h)]
    rfl

end

/-! ### Supplying words leaves what the commands read (R21) -/

section
variable (s : State) (ws : List CommandWord)

@[simp] theorem State.supply_err : (s.supply ws).err = s.err := rfl
@[simp] theorem State.supply_hold : (s.supply ws).hold = s.hold := rfl
@[simp] theorem State.supply_holdv : (s.supply ws).holdv = s.holdv := rfl
@[simp] theorem State.supply_buPad : (s.supply ws).buPad = s.buPad := rfl
@[simp] theorem State.supply_ctRead (k : Symbol) : (s.supply ws).ctRead k = s.ctRead k := rfl

/-! ### The shared operations

Every test of the pseudocode reads what the supply leaves, so the change of state moves into the branches (`apply_ite`), where both sides
compute to the same state. -/

theorem pushBit_supply (bit : Bool) : pushBit (s.supply ws) bit = (pushBit s bit).supply ws := by
  simp only [pushBit, apply_ite (State.supply · ws)]
  rfl

theorem pushBits_supply (bits : List Bool) : pushBits (s.supply ws) bits = (pushBits s bits).supply ws :=
  List.foldl_hom (State.supply · ws) fun t bit => pushBit_supply t ws bit

theorem walk_supply (bit : Bool) : walk bit (s.supply ws) = mapFlow (State.supply · ws) (walk bit s) := by
  simp only [walk, apply_ite (mapFlow _)]
  rfl

theorem walkBits_supply (bits : List Bool) : walkBits bits (s.supply ws) = mapFlow (State.supply · ws) (walkBits bits s) := by
  induction bits generalizing s with
  | nil => rfl
  | cons bit bits ih =>
    simp only [walkBits, walk_supply]
    cases walk bit s with
    | ok t => exact ih t
    | error t => rfl

theorem endPayload_supply : endPayload (s.supply ws) = mapFlow (State.supply · ws) (endPayload s) := by
  simp only [endPayload, State.supply_buPad, State.supply_hold, walkBits_supply]
  refine mapFlow_bind (fun t => ?_) _
  simp only [apply_ite (mapFlow _)]
  rfl

theorem endEmpty_supply : endEmpty (s.supply ws) = mapFlow (State.supply · ws) (endEmpty s) := by
  simp only [endEmpty, apply_ite (mapFlow _)]
  rfl

/-! ### Commands, words and steps -/

theorem runChecked_supply {body : State → Flow} (h : body (s.supply ws) = mapFlow (State.supply · ws) (body s)) :
    runChecked body (s.supply ws) = mapAnswer (State.supply · ws) (runChecked body s) :=
  runChecked_map (f := (State.supply · ws)) (State.supply_err s ws) h

/-- No command reads or writes the host's list of words (R21). -/
theorem exec_supply (i : Instr) : exec i (s.supply ws) = mapAnswer (State.supply · ws) (exec i s) := by
  cases i with unfold exec
  | nop | reset | rdStatus => rfl
  | faClr | faRd | ctClr | ctSet | bpRdpad | tnClr | tnWr | buCfg => exact runChecked_supply s ws rfl
  | faPush | ctApp | bpEnd =>
    refine runChecked_supply s ws ?_
    simp only [apply_ite (mapFlow _)]
    rfl
  | bpPush k =>
    refine runChecked_supply s ws ?_
    simp only [State.supply_ctRead, pushBits_supply, apply_ite (mapFlow _)]
    rfl
  | buByte b =>
    refine runChecked_supply s ws ?_
    simp only [State.supply_holdv, State.supply_hold, walkBits_supply]
    split
    · exact mapFlow_bind (fun _ => rfl) _
    · rfl
  | buEnd =>
    refine runChecked_supply s ws ?_
    simp only [endPayload_supply, endEmpty_supply, apply_ite (mapFlow _)]
    rfl

theorem execWord_supply (w : CommandWord) : execWord w (s.supply ws) = mapAnswer (State.supply · ws) (execWord w s) := by
  unfold execWord
  cases decode w with
  | ok i => exact exec_supply s ws i
  | error why => exact runChecked_supply s ws rfl

/-- Words at the end of the list do not change which word comes next, if there is one. -/
theorem fetchWord_supply (h : s.pc < s.program.length) : fetchWord (s.supply ws) = fetchWord s :=
  List.getElem?_append_left h

end

/-- Settles O23: the same word is taken (`fetchWord_supply`), and executing it commutes with the supply (`execWord_supply`). -/
theorem laterWordsDoNotAffectAStep : Obligations.LaterWordsDoNotAffectAStep := by
  intro s ws h
  have hw : fetchWord s = some s.program[s.pc] := List.getElem?_eq_getElem h
  simp only [step, fetchWord_supply s ws h, hw]
  exact execWord_supply s.advance ws _

end Sys2Proof.Machine
end

section
/-!
What one step can do, said once (`stepEffect_of_step`): it idles, or takes a word that runs a command on one of the paths of `Effect`, or
takes an illegal word. With it what the decoder answers with: legal operands only, and `RESET` for one word only.
-/

namespace Sys2Proof

/-! ### What a decoded word says -/

/-- Every command that a word decodes to has legal operands (R74, R76, R79). -/
theorem wellFormed_of_decode {w : CommandWord} {i : Instr} (h : decode w = .ok i) : i.wellFormed = true := by
  unfold decode at h
  split at h
  -- format C: CT_SET and CT_APP
  case h_8 | h_9 =>
    simp only [decodeC, require_eq_ok, Except.ok.injEq] at h
    obtain ⟨-, hlen, hbits, rfl⟩ := h
    exact Bool.and_eq_true_iff.mpr ⟨hlen, hbits⟩
  -- format T: TN_WR
  case h_14 =>
    simp only [decodeT, require_eq_ok, Except.ok.injEq, Bool.and_eq_true, Bool.or_eq_true, beq_iff_eq] at h
    obtain ⟨-, -, hleaf, hsym, ⟨hleft, hright⟩, rfl⟩ := h
    simp only [Instr.wellFormed, nodeWellFormed, Bool.and_eq_true, Bool.or_eq_true, beq_iff_eq]
    exact ⟨⟨⟨hleaf, hsym⟩, hleft.imp_right fun h => by rw [h]; rfl⟩, hright.imp_right fun h => by rw [h]; rfl⟩
  -- format B: BU_CFG
  case h_15 =>
    simp only [decodeB, require_eq_ok, Except.ok.injEq] at h
    obtain ⟨-, -, rfl⟩ := h
    rfl
  -- no row of the opcode map
  case h_18 => cases h
  -- formats Z and S: no check on the operands
  all_goals
    simp only [decodeZ, decodeS, require_eq_ok, Except.ok.injEq] at h
    obtain ⟨-, rfl⟩ := h
    rfl

/-- The one word of `RESET` (R78). -/
theorem decode_eq_reset_iff {w : CommandWord} : decode w = .ok .reset ↔ w = 0x0100000000000000#64 := by
  refine ⟨fun h => ?_, fun h => h ▸ rfl⟩
  unfold decode at h
  split at h
  case h_2 hop =>
    have hlow : w.extractLsb' 0 56 = 0#56 := by simpa [decodeZ, require_eq_ok] using h
    calc w = w.extractLsb' 0 64 := (extract_self w).symm
      _ = opField w ++ w.extractLsb' 0 56 := (extract_append_extract w 0 56 8).symm
      _ = _ := by rw [hop, hlow]; rfl
  all_goals simp [decodeZ, decodeS, decodeC, decodeT, decodeB, require_eq_ok] at h

end Sys2Proof

namespace Sys2Proof.Machine

/-! ### What one step can do -/

/-- How a step takes a state to the next one: one constructor for each path through `step` and `execWord`. -/
inductive StepEffect (s : State) : State → Prop where
  /-- No word is left (R208, log entry 1). -/
  | idle (none : s.program[s.pc]? = none) : StepEffect s s
  /-- The word is a command's. -/
  | command {w : CommandWord} {i : Instr} {t : State} (word : s.program[s.pc]? = some w) (legal : decode w = .ok i)
      (effect : Effect i s.advance t) : StepEffect s t
  /-- The word is illegal, and discarded (R193, R197). -/
  | illegalDiscarded {w : CommandWord} {why : Illegal} (word : s.program[s.pc]? = some w) (illegal : decode w = .error why)
      (faulted : s.err ≠ 0#4) : StepEffect s s.advance
  /-- The word is illegal, and faults (R193). -/
  | illegalFault {w : CommandWord} {why : Illegal} (word : s.program[s.pc]? = some w) (illegal : decode w = .error why)
      (clear : s.err = 0#4) : StepEffect s (s.advance.enterFault .illegalCommand (byteInfo (opField w)))

theorem step_of_none {s : State} (h : s.program[s.pc]? = none) : step s = .next s := by
  simp only [step, fetchWord, h, idle]

theorem step_of_some {s : State} {w : CommandWord} (h : s.program[s.pc]? = some w) : step s = execWord w s.advance := by
  simp only [step, fetchWord, h]

theorem execWord_of_legal {w : CommandWord} {i : Instr} (h : decode w = .ok i) (s : State) : execWord w s = exec i s := by
  simp only [execWord, h]

theorem execWord_of_illegal {w : CommandWord} {why : Illegal} (h : decode w = .error why) (s : State) :
    execWord w s = execIllegal w s := by
  simp only [execWord, h]

/-- The path that a step's next state came by. -/
theorem stepEffect_of_step {s t : State} (h : step s = .next t) : StepEffect s t := by
  cases hw : s.program[s.pc]? with
  | none =>
    rw [step_of_none hw] at h
    exact Host.Outcome.next.inj h ▸ .idle hw
  | some w =>
    rw [step_of_some hw] at h
    cases hd : decode w with
    | ok i => exact .command hw hd (effect_of_exec (execWord_of_legal hd _ ▸ h))
    | error why =>
      rw [execWord_of_illegal hd] at h
      rcases runChecked_next h with ⟨he, rfl⟩ | ⟨he, rfl⟩
      · exact .illegalDiscarded hw hd he
      · exact .illegalFault hw hd he

end Sys2Proof.Machine
end

section
/-!
Settles O18 and O19: each named update of the state keeps the invariant, hence each path of `Effect` with legal operands does, hence each
path of a step.
-/

namespace Sys2Proof.Machine

/-! ### Table entries and fault records that the commands write -/

theorem codeEntryOk_noCode : CodeEntryOk noCode := ⟨fun _ => rfl, Nat.zero_lt_one⟩

/-- The entry made from a code that fits is as R23 says. -/
theorem codeEntryOk_codeEntry {c : List Bool} (h : c.length ≤ 255) : CodeEntryOk (codeEntry c) :=
  ⟨fun hv => absurd hv (by simp), codeEntry_ok h⟩

theorem nodeOk_noNode : NodeOk noNode := ⟨fun _ => rfl, Bool.noConfusion, fun _ => rfl, fun _ => rfl, fun _ => rfl⟩

/-- The operands that R76 allows make an entry as R29 says. -/
theorem nodeOk_of_wellFormed {leaf lp rp : Bool} {left right : NodeIndex} {sym : Symbol}
    (h : nodeWellFormed leaf lp rp left right sym = true) : NodeOk ⟨true, leaf, lp, rp, left, right, sym⟩ := by
  simp only [nodeWellFormed, Bool.and_eq_true, Bool.or_eq_true, Bool.not_eq_true', beq_iff_eq] at h
  obtain ⟨⟨⟨hleaf, hsym⟩, hleft⟩, hright⟩ := h
  refine ⟨Bool.noConfusion, fun h => ?_, fun h => ?_, fun h => ?_, fun h => ?_⟩ <;> simp_all

theorem faultRecordOk_clear : FaultRecordOk 0#4 0#16 := .inl ⟨rfl, rfl⟩

theorem faultRecordOk_unknownSymbol (b : BitVec 8) : FaultRecordOk (faultCode .unknownSymbol) (byteInfo b) :=
  .inr (.inl ⟨b, .inl rfl, rfl⟩)

theorem faultRecordOk_countOverflow (b : BitVec 8) : FaultRecordOk (faultCode .countOverflow) (byteInfo b) :=
  .inr (.inl ⟨b, .inr (.inl rfl), rfl⟩)

theorem faultRecordOk_illegalCommand (b : BitVec 8) : FaultRecordOk (faultCode .illegalCommand) (byteInfo b) :=
  .inr (.inl ⟨b, .inr (.inr rfl), rfl⟩)

theorem faultRecordOk_corruptPayload {sub : BitVec 4} (idx : NodeIndex) (h1 : 1 ≤ sub.toNat) (h5 : sub.toNat ≤ 5) :
    FaultRecordOk (faultCode .corruptPayload) (payloadInfo sub idx) := .inr (.inr (.inl ⟨sub, idx, rfl, h1, h5, rfl⟩))

theorem faultRecordOk_codeTable {sub : BitVec 4} (b : Symbol) (h1 : 1 ≤ sub.toNat) (h2 : sub.toNat ≤ 2) :
    FaultRecordOk (faultCode .codeTable) (tableInfo sub b) := .inr (.inr (.inr ⟨sub, b, rfl, h1, h2, rfl⟩))

/-- A bit that faults gives a record as R192 says: its sub-cause is 1, 2 or 3. -/
theorem WalkFault.recordOk {node : NodeIndex → TreeNode} {cur idx : NodeIndex} {bit : Bool} {sub : BitVec 4}
    (h : WalkFault node cur bit sub idx) : FaultRecordOk (faultCode .corruptPayload) (payloadInfo sub idx) := by
  rcases h with ⟨-, rfl, -⟩ | ⟨-, -, rfl, -⟩ | ⟨-, -, -, rfl, -⟩ | ⟨-, -, -, -, rfl, -⟩ <;>
    exact faultRecordOk_corruptPayload idx (by decide) (by decide)

/-- The loop of R121 as an update of the three fields it writes. -/
theorem pushBits_eq (s : State) (bits : List Bool) :
    pushBits s bits =
      { s with acc := (pushBits s bits).acc, nbits := (pushBits s bits).nbits, pko := (pushBits s bits).pko } :=
  congrArg (fun u : State => { u with acc := (pushBits s bits).acc, nbits := (pushBits s bits).nbits, pko := (pushBits s bits).pko })
    (pushBits_frame bits s)

/-! ### Each update keeps the invariant

A field of the invariant that speaks of nothing the update writes is the old one. -/

theorem Invariant.resetRegisters (s : State) : Invariant s.resetRegisters where
  memory := rfl
  code _ := codeEntryOk_noCode
  node _ := nodeOk_noNode
  buffer := rfl
  hold _ := rfl
  walker _ _ := rfl
  record := faultRecordOk_clear

namespace Invariant

variable {s : State} (hi : Invariant s)
include hi

theorem advance : Invariant s.advance := { hi with }

theorem emitRsp (w : ResponseWord) : Invariant (s.emitRsp w) := { hi with }

theorem emitSyoTimes (n : Nat) (c : Symbol) : Invariant (s.emitSyoTimes n c) := { hi with }

theorem setPad (pad : BitVec 3) : Invariant { s with pad := pad } := { hi with }

theorem setConfig (pad : BitVec 3) (nsym : BitVec 32) : Invariant { s with buPad := pad, buNsym := nsym } := { hi with }

theorem histClear : Invariant s.histClear := { hi with memory := Memory.wf_histClear s hi.memory }

theorem histWrite (k : Symbol) (v : Count) : Invariant (s.histWrite k v) :=
  { hi with memory := Memory.wf_histWrite s k v hi.memory }

theorem ctClear : Invariant s.ctClear :=
  { hi with memory := Memory.wf_ctClear s hi.memory, code := fun _ => codeEntryOk_noCode }

theorem ctWrite (k : Symbol) {e : CodeEntry} (he : CodeEntryOk e) : Invariant (s.ctWrite k e) :=
  { hi with
    memory := Memory.wf_ctWrite s k e hi.memory
    code := fun j => by
      rw [State.ctRead_ctWrite]
      split
      · exact he
      · exact hi.code j }

theorem tnClear : Invariant s.tnClear :=
  { hi with memory := Memory.wf_tnClear s hi.memory, node := fun _ => nodeOk_noNode }

theorem nodeWrite (i : NodeIndex) {n : TreeNode} (hn : NodeOk n) : Invariant (s.nodeWrite i n) :=
  { hi with
    memory := Memory.wf_nodeWrite s i n hi.memory
    node := fun j => by
      rw [State.nodeRead_nodeWrite]
      split
      · exact hn
      · exact hi.node j }

theorem pushBits (bits : List Bool) : Invariant (pushBits s bits) := by
  have hb := pushBits_bufferOk hi.buffer bits
  rw [pushBits_eq] at hb ⊢
  exact { hi with buffer := hb }

/-- The flush of R122 leaves an empty buffer. -/
theorem emptyBuffer (pad : BitVec 3) (pko : List Byte) :
    Invariant { s with pko := pko, pad := pad, acc := 0#8, nbits := 0#3 } := { hi with buffer := rfl }

/-- While a byte is held the walker may stand anywhere (R37). -/
theorem holding (syo : List Symbol) (cur : NodeIndex) (b : Byte) :
    Invariant { s with syo := syo, cur := cur, hold := b, holdv := true } :=
  { hi with hold := Bool.noConfusion, walker := fun _ => Bool.noConfusion }

/-- A payload that ended at the root leaves the start state of a run (R153). -/
theorem released (syo : List Symbol) : Invariant { s with syo := syo, cur := Config.root, hold := 0#8, holdv := false } :=
  { hi with hold := fun _ => rfl, walker := fun _ _ => rfl }

/-- After a fault the walker may stand anywhere (R37), with the byte still held or already dropped. -/
theorem faultOnWalk (syo : List Symbol) (cur : NodeIndex) {hold : Byte} {holdv : Bool} (hh : holdv = false → hold = 0#8)
    {f : FaultName} {info : BitVec 16} (hr : FaultRecordOk (faultCode f) info) :
    Invariant (State.enterFault { s with syo := syo, cur := cur, hold := hold, holdv := holdv } f info) :=
  { hi with hold := hh, walker := fun h => absurd h (faultCode_ne_zero f), record := hr }

theorem enterFault {f : FaultName} {info : BitVec 16} (hr : FaultRecordOk (faultCode f) info) : Invariant (s.enterFault f info) :=
  hi.faultOnWalk s.syo s.cur hi.hold hr

/-! ### Every command keeps the invariant -/

/-- Every path of a command with legal operands keeps the invariant. -/
theorem of_effect {i : Instr} {t : State} (hw : i.wellFormed = true) (e : Effect i s t) : Invariant t := by
  cases e with
  | nop | discarded | buEndInnerRoot => exact hi
  | reset => exact .resetRegisters s
  | rdStatus | faRd | bpRdpad => exact hi.emitRsp _
  | faClr => exact hi.histClear
  | faPush => exact hi.histWrite _ _
  | faPushFull => exact hi.enterFault (faultRecordOk_countOverflow _)
  | ctClr => exact hi.ctClear
  | ctSet => exact hi.ctWrite _ (codeEntryOk_codeEntry (length_chunkBits_le _ _))
  | ctApp => next fits => exact hi.ctWrite _ (codeEntryOk_codeEntry (by simpa using fits))
  | ctAppNoCode | ctAppTooLong => exact hi.enterFault (faultRecordOk_codeTable _ (by decide) (by decide))
  | bpPush => exact hi.pushBits _
  | bpPushNoCode => exact hi.enterFault (faultRecordOk_unknownSymbol _)
  | bpEnd => exact hi.emptyBuffer _ _
  | bpEndEmpty => exact hi.setPad _
  | tnClr => exact hi.tnClear
  | tnWr => exact hi.nodeWrite _ (nodeOk_of_wellFormed hw)
  | buCfg => exact hi.setConfig _ _
  | buByteFirst => exact hi.holding s.syo s.cur _
  | buByte => exact hi.holding _ _ _
  | buByteFault | buEndFault => next fault => exact hi.faultOnWalk _ _ hi.hold fault.recordOk
  | buEnd => exact hi.released _
  | buEndMidPath =>
    exact hi.faultOnWalk _ _ (fun _ => rfl) (faultRecordOk_corruptPayload _ (by decide) (by decide))
  | buEndPadding | buEndNoRoot => exact hi.enterFault (faultRecordOk_corruptPayload _ (by decide) (by decide))
  | buEndLeafRoot => exact hi.emitSyoTimes _ _

end Invariant

/-- Settles O18: a word that decodes has legal operands (`wellFormed_of_decode`), so its command keeps the invariant
(`Invariant.of_effect`); an illegal word only moves the position or enters its fault. -/
theorem stepKeepsTheInvariant : Obligations.StepKeepsTheInvariant := by
  intro s t hi h
  cases stepEffect_of_step h with
  | idle => exact hi
  | command word legal effect => exact hi.advance.of_effect (wellFormed_of_decode legal) effect
  | illegalDiscarded => exact hi.advance
  | illegalFault => exact hi.advance.enterFault (faultRecordOk_illegalCommand _)

/-- Settles O19: the power-on state is the reset of itself. -/
theorem powerOnStateMeetsTheInvariant : Obligations.PowerOnStateMeetsTheInvariant := Invariant.resetRegisters State.reset

end Sys2Proof.Machine
end

section
/-!
Settles O7, O11, O14, O20, O25, O26 and O29: what each path of `Effect` leaves alone (R39), what it can do to the fault registers, the
channels and CUR, and from that what a step can.
-/

namespace Sys2Proof.Machine

/-! ### The frame of a command (R39) -/

theorem Column.same_refl (c : Column) (s : State) : c.same s s := by
  cases c with
  | bitBuffer | config => exact ⟨rfl, rfl⟩
  | walker => exact ⟨rfl, rfl, rfl⟩
  | _ => rfl

/-- Fault entry writes no column of R39 (R196). -/
theorem Column.same_enterFault {c : Column} {s t : State} (h : c.same s t) (f : FaultName) (info : BitVec 16) :
    c.same s (t.enterFault f info) := by
  cases c <;> exact h

/-- The columns that a command's row of R39 does not mark written stay: column by column, it is in the row or the path's update writes
another field. -/
theorem Effect.same {i : Instr} {s t : State} (e : Effect i s t) {c : Column} (hc : c ∉ writtenColumns i) : c.same s t := by
  cases e with
  | nop | discarded | buEndInnerRoot => exact c.same_refl s
  | faPushFull | ctAppNoCode | ctAppTooLong | bpPushNoCode | buEndPadding | buEndNoRoot =>
    exact Column.same_enterFault (c.same_refl s) _ _
  | bpPush =>
    rw [pushBits_eq]
    cases c <;> simp_all [writtenColumns, Column.same]
  | _ => cases c <;> simp_all [writtenColumns, Column.same]

/-- No command reads or writes the host's list and the position in it (R21). -/
theorem Effect.program_pc {i : Instr} {s t : State} (e : Effect i s t) : t.program = s.program ∧ t.pc = s.pc := by
  cases e with
  | bpPush => rw [pushBits_eq]; exact ⟨rfl, rfl⟩
  | _ => exact ⟨rfl, rfl⟩

theorem State.enterFault_err_ne_zero (s : State) (f : FaultName) (info : BitVec 16) : (s.enterFault f info).err ≠ 0#4 :=
  faultCode_ne_zero f

/-- Only `RESET` clears the fault registers, and the other commands write them by fault entry alone (R33). -/
theorem Effect.faultRecord {i : Instr} {s t : State} (e : Effect i s t) (hi : i ≠ .reset) :
    (t.err = s.err ∧ t.errInfo = s.errInfo) ∨ (s.err = 0#4 ∧ t.err ≠ 0#4) := by
  cases e with
  | reset => exact absurd rfl hi
  | faPushFull | ctAppNoCode | ctAppTooLong | bpPushNoCode | buByteFault | buEndMidPath | buEndFault | buEndPadding | buEndNoRoot =>
    exact .inr ⟨‹_›, State.enterFault_err_ne_zero _ _ _⟩
  | bpPush => rw [pushBits_eq]; exact .inl ⟨rfl, rfl⟩
  | _ => exact .inl ⟨rfl, rfl⟩

/-- `RESET` is executed whatever ERR is (R197). -/
theorem Effect.eq_resetRegisters {s t : State} (e : Effect .reset s t) : t = s.resetRegisters := by
  cases e with
  | reset => rfl
  | discarded => exact absurd rfl ‹unitOf _ ≠ .system›

/-- Settles O26: the three parts are the frame, the host's list and position, and the fault registers on each path of `Effect`. -/
theorem commandsChangeOnlyTheirColumns : Obligations.CommandsChangeOnlyTheirColumns := by
  intro i s t h
  have e := effect_of_exec h
  obtain ⟨hprogram, hpc⟩ := e.program_pc
  exact ⟨fun _ hc => e.same hc, hprogram, hpc, e.faultRecord⟩

/-! ### The position and the fault registers over a step -/

/-- Settles O7: the word is taken and decoded as given, and `State.advance` is the position moved on by one. -/
theorem stepRunsTheDecodedCommand : Obligations.StepRunsTheDecodedCommand := by
  intro s w i hw hd
  rw [step_of_some hw, execWord_of_legal hd]
  rfl

/-- Settles O11: a word moves the position before its command runs, which leaves it alone (`Effect.program_pc`). -/
theorem positionMovesByOnePerWord : Obligations.PositionMovesByOnePerWord := by
  intro s t h
  cases stepEffect_of_step h with
  | idle none => exact ⟨rfl, fun hlt => absurd none (by simp [hlt]), fun _ => rfl⟩
  | command word legal effect =>
    obtain ⟨hlt, -⟩ := List.getElem?_eq_some_iff.mp word
    obtain ⟨hprogram, hpc⟩ := effect.program_pc
    exact ⟨hprogram, fun _ => hpc, fun hle => absurd hlt (by omega)⟩
  | illegalDiscarded word | illegalFault word =>
    obtain ⟨hlt, -⟩ := List.getElem?_eq_some_iff.mp word
    exact ⟨rfl, fun _ => rfl, fun hle => absurd hlt (by omega)⟩

/-- Where the `RESET` word stands next, the word taken decodes to `RESET`. -/
theorem decode_eq_reset_of_word {s : State} {w : CommandWord} (word : s.program[s.pc]? = some w)
    (hw : s.program[s.pc]? = some 0x0100000000000000#64) : decode w = .ok .reset :=
  decode_eq_reset_iff.mpr (Option.some.inj (word.symm.trans hw))

/-- Settles O14: the word is the `RESET` word exactly when it decodes to `RESET` (`decode_eq_reset_iff`), which clears the fault registers;
any other command can only keep them (`Effect.faultRecord`). -/
theorem firstFaultIsKeptUntilReset : Obligations.FirstFaultIsKeptUntilReset := by
  intro s t hs h
  cases stepEffect_of_step h with
  | idle none => exact .inl ⟨rfl, rfl, by simp [none]⟩
  | @command _ i _ word legal effect =>
    by_cases hi : i = .reset
    · subst hi
      rw [effect.eq_resetRegisters]
      exact .inr ⟨rfl, rfl, decode_eq_reset_iff.mp legal ▸ word⟩
    · obtain ⟨herr, hinfo⟩ := (effect.faultRecord hi).resolve_right fun h => hs h.1
      refine .inl ⟨herr, hinfo, fun hw => hi ?_⟩
      exact Except.ok.inj (legal.symm.trans (decode_eq_reset_of_word word hw))
  | illegalDiscarded word illegal faulted =>
    exact .inl ⟨rfl, rfl, fun hw => nomatch illegal.symm.trans (decode_eq_reset_of_word word hw)⟩
  | illegalFault word illegal clear => exact absurd clear hs

/-! ### The channels over a step (R34) -/

/-- A command only appends to the channels. -/
theorem Effect.channels_grow {i : Instr} {s t : State} (e : Effect i s t) :
    s.pko <+: t.pko ∧ s.syo <+: t.syo ∧ s.rsp <+: t.rsp := by
  cases e with
  | rdStatus | faRd | bpRdpad => exact ⟨List.prefix_rfl, List.prefix_rfl, List.prefix_append _ _⟩
  | bpPush =>
    rw [pushBits_eq]
    exact ⟨⟨_, (pushBits_spec _ s).1.symm⟩, List.prefix_rfl, List.prefix_rfl⟩
  | bpEnd => exact ⟨List.prefix_append _ _, List.prefix_rfl, List.prefix_rfl⟩
  | buByte | buByteFault | buEnd | buEndMidPath | buEndFault | buEndLeafRoot =>
    exact ⟨List.prefix_rfl, List.prefix_append _ _, List.prefix_rfl⟩
  | _ => exact ⟨List.prefix_rfl, List.prefix_rfl, List.prefix_rfl⟩

/-- Settles O25: only a command's word can append (`Effect.channels_grow`). -/
theorem channelsOnlyGrow : Obligations.ChannelsOnlyGrow := by
  intro s t h
  cases stepEffect_of_step h with
  | command word legal effect => exact effect.channels_grow
  | _ => exact ⟨List.prefix_rfl, List.prefix_rfl, List.prefix_rfl⟩

/-! ### CUR over a step (R30, R51) -/

/-- A node index that is the root or stands in a child field of the tree memory. -/
def RootOrChild (node : NodeIndex → TreeNode) (j : NodeIndex) : Prop :=
  j = Config.root ∨ ∃ i, j = (node i).left ∨ j = (node i).right

theorem WalkStep.rootOrChild {node : NodeIndex → TreeNode} {cur next : NodeIndex} {bit : Bool} {out : List Symbol}
    (h : WalkStep node cur bit out next) : RootOrChild node next := by
  cases h with
  | inner child here edge there =>
    cases bit with
    | false => exact .inr ⟨cur, .inl edge.2.symm⟩
    | true => exact .inr ⟨cur, .inr edge.2.symm⟩
  | leaf => exact .inl rfl

/-- A walk ends where it began, or where its last step took it. -/
theorem Walks.rootOrChild {node : NodeIndex → TreeNode} {cur last : NodeIndex} {bits : List Bool} {out : List Symbol}
    (h : Walks node cur bits out last) : last = cur ∨ RootOrChild node last := by
  induction h with
  | done cur => exact .inl rfl
  | step cur mid last bit bits out outs first rest ih =>
    exact .inr (ih.elim (fun h => h ▸ first.rootOrChild) id)

/-- A command keeps CUR, puts it to the root, or walks it to a child. -/
theorem Effect.cur {i : Instr} {s t : State} (e : Effect i s t) : t.cur = s.cur ∨ RootOrChild s.nodeRead t.cur := by
  cases e with
  | reset | buEnd => exact .inr (.inl rfl)
  | bpPush => rw [pushBits_eq]; exact .inl rfl
  | buByte | buByteFault | buEndMidPath | buEndFault => exact Walks.rootOrChild ‹_›
  | _ => exact .inl rfl

/-- Settles O29: only a command's word can move CUR (`Effect.cur`). -/
theorem curIsRootOrACopiedChildIndex : Obligations.CurIsRootOrACopiedChildIndex := by
  intro s t h
  cases stepEffect_of_step h with
  | command word legal effect => exact effect.cur
  | _ => exact .inl rfl

/-! ### Power-on (R36, R220) -/

/-- Settles O20: no table lists an entry, and every register is written out in `State.reset`. -/
theorem powerOnStateHoldsTheResetValues : Obligations.PowerOnStateHoldsTheResetValues := by
  refine ⟨fun _ => rfl, fun _ => rfl, fun _ => rfl, ?_⟩
  decide

end Sys2Proof.Machine
end

section
/-!
Settles O27: the pseudocode of a command commutes with replacing the state of another unit than its own, because it reads and writes only its
own unit's state and the fault registers (R233). With the other unit given, every test of the pseudocode reads what the replacement leaves, so
the replacement moves into the branches (`apply_ite`), where both sides compute to the same state.
-/

namespace Sys2Proof.Machine

section
variable {u : HbeUnit} (o s : State)

/-! ### What the replacement leaves -/

theorem overlay_err : (overlay u o s).err = s.err := by cases u <;> rfl

theorem overlay_ctRead (hu : .bp ≠ u) (k : Symbol) : (overlay u o s).ctRead k = s.ctRead k :=
  match u, hu with
  | .system, _ | .fa, _ | .bu, _ => rfl

theorem overlay_unpacker (hu : .bu ≠ u) :
    (overlay u o s).holdv = s.holdv ∧ (overlay u o s).hold = s.hold ∧ (overlay u o s).buPad = s.buPad :=
  match u, hu with
  | .system, _ | .fa, _ | .bp, _ => ⟨rfl, rfl, rfl⟩

theorem overlay_setHold (hu : .bu ≠ u) (b : Byte) (v : Bool) :
    { overlay u o s with hold := b, holdv := v } = overlay u o { s with hold := b, holdv := v } :=
  match u, hu with
  | .system, _ | .fa, _ | .bp, _ => rfl

/-! ### The shared operations of the packer and of the unpacker -/

theorem pushBit_overlay (hu : .bp ≠ u) (bit : Bool) : pushBit (overlay u o s) bit = overlay u o (pushBit s bit) := by
  simp only [pushBit, apply_ite (overlay u o)]
  match u, hu with
  | .system, _ | .fa, _ | .bu, _ => rfl

theorem pushBits_overlay (hu : .bp ≠ u) (bits : List Bool) : pushBits (overlay u o s) bits = overlay u o (pushBits s bits) :=
  List.foldl_hom (overlay u o) fun t bit => pushBit_overlay o t hu bit

theorem walk_overlay (hu : .bu ≠ u) (bit : Bool) : walk bit (overlay u o s) = mapFlow (overlay u o) (walk bit s) := by
  simp only [walk, apply_ite (mapFlow _)]
  match u, hu with
  | .system, _ | .fa, _ | .bp, _ => rfl

theorem walkBits_overlay (hu : .bu ≠ u) (bits : List Bool) :
    walkBits bits (overlay u o s) = mapFlow (overlay u o) (walkBits bits s) := by
  induction bits generalizing s with
  | nil => rfl
  | cons bit bits ih =>
    simp only [walkBits, walk_overlay o s hu]
    cases walk bit s with
    | ok t => exact ih t
    | error t => rfl

theorem endPayload_overlay (hu : .bu ≠ u) : endPayload (overlay u o s) = mapFlow (overlay u o) (endPayload s) := by
  simp only [endPayload, overlay_unpacker o s hu, walkBits_overlay o s hu]
  refine mapFlow_bind (fun t => ?_) _
  simp only [apply_ite (mapFlow _)]
  match u, hu with
  | .system, _ | .fa, _ | .bp, _ => rfl

theorem endEmpty_overlay (hu : .bu ≠ u) : endEmpty (overlay u o s) = mapFlow (overlay u o) (endEmpty s) := by
  simp only [endEmpty, apply_ite (mapFlow _)]
  match u, hu with
  | .system, _ | .fa, _ | .bp, _ => rfl

/-! ### The commands, unit by unit -/

theorem runChecked_overlay {body : State → Flow} (h : body (overlay u o s) = mapFlow (overlay u o) (body s)) :
    runChecked body (overlay u o s) = mapAnswer (overlay u o) (runChecked body s) :=
  runChecked_map (overlay_err o s) h

theorem exec_overlay {i : Instr} (hs : unitOf i ≠ .system) (hu : unitOf i ≠ u) :
    exec i (overlay u o s) = mapAnswer (overlay u o) (exec i s) := by
  cases i with unfold exec
  | nop | reset | rdStatus => exact absurd rfl hs
  | faClr | faRd =>
    refine runChecked_overlay o s ?_
    match u, hu with
    | .system, _ | .bp, _ | .bu, _ => rfl
  | faPush =>
    refine runChecked_overlay o s ?_
    simp only [apply_ite (mapFlow _)]
    match u, hu with
    | .system, _ | .bp, _ | .bu, _ => rfl
  | ctClr | ctSet | bpRdpad =>
    refine runChecked_overlay o s ?_
    match u, hu with
    | .system, _ | .fa, _ | .bu, _ => rfl
  | ctApp | bpEnd =>
    refine runChecked_overlay o s ?_
    simp only [apply_ite (mapFlow _)]
    match u, hu with
    | .system, _ | .fa, _ | .bu, _ => rfl
  | bpPush k =>
    refine runChecked_overlay o s ?_
    simp only [overlay_ctRead o s hu, pushBits_overlay o s hu, apply_ite (mapFlow _)]
    match u, hu with
    | .system, _ | .fa, _ | .bu, _ => rfl
  | tnClr | tnWr | buCfg =>
    refine runChecked_overlay o s ?_
    match u, hu with
    | .system, _ | .fa, _ | .bp, _ => rfl
  | buByte b =>
    refine runChecked_overlay o s ?_
    simp only [overlay_unpacker o s hu, walkBits_overlay o s hu]
    split
    · refine mapFlow_bind (fun t => ?_) _
      exact congrArg Except.ok (overlay_setHold o t hu b true)
    · exact congrArg Except.ok (overlay_setHold o s hu b true)
  | buEnd =>
    refine runChecked_overlay o s ?_
    simp only [overlay_unpacker o s hu, endPayload_overlay o s hu, endEmpty_overlay o s hu, apply_ite (mapFlow _)]

end

/-- Settles O27: `exec_overlay` is the statement with the unit and the command implicit. -/
theorem unitsShareNoStateButTheFaultRegisters : Obligations.UnitsShareNoStateButTheFaultRegisters :=
  fun _ o s _ hs hu => exec_overlay o s hs hu

end Sys2Proof.Machine
end

section
/-!
Settles O28 and O30: the writes of R56 are idempotent because a second write to one entry replaces the first (`Table.write_write`), and the
canonical form of a table is determined by its reads (`Table.eq_of_read_eq`), which beyond the table's size are all the default.
-/

namespace Sys2Proof.Machine

/-! ### Writes and reads done twice (R56) -/

section
variable (s : State)

theorem State.ctWrite_ctWrite (k : Symbol) (e e' : CodeEntry) : (s.ctWrite k e).ctWrite k e' = s.ctWrite k e' := by
  simp [State.ctWrite]

theorem State.nodeWrite_nodeWrite (i : NodeIndex) (n n' : TreeNode) : (s.nodeWrite i n).nodeWrite i n' = s.nodeWrite i n' := by
  simp [State.nodeWrite]

end

/-- A checked command that never faults and whose effect is idempotent leaves its next state when it runs again. -/
theorem runChecked_twice {f : State → State} {s t : State} (h : runChecked (fun s => .ok (f s)) s = .next t)
    (hf : ∀ s, f (f s) = f s) : runChecked (fun s => .ok (f s)) t = .next t := by
  obtain ⟨-, rfl⟩ | ⟨-, rfl⟩ := runChecked_next h
  · exact h
  · by_cases herr : (f s).err = 0#4
    · rw [Flow.state_ok, runChecked_of_clear herr, Flow.state_ok, hf]
    · exact runChecked_of_faulted herr

/-- Settles O28: each write's effect on the state is idempotent, and no read's word depends on the RSP channel that it appends to. -/
theorem repeatedWritesAndReadsAreIdempotent : Obligations.RepeatedWritesAndReadsAreIdempotent := by
  constructor
  · intro i s t hi h
    cases i with unfold exec at h ⊢
    | faClr | ctClr | tnClr | buCfg => exact runChecked_twice h fun _ => rfl
    | ctSet => exact runChecked_twice h fun s => s.ctWrite_ctWrite _ _ _
    | tnWr => exact runChecked_twice h fun s => s.nodeWrite_nodeWrite _ _ _
    | _ => exact absurd hi Bool.false_ne_true
  · intro i s clear hi
    cases i with unfold exec
    | faRd | bpRdpad => exact ⟨_, runChecked_of_clear clear, runChecked_of_clear clear⟩
    | rdStatus => exact ⟨_, rfl, rfl⟩
    | _ => exact absurd hi Bool.false_ne_true

/-! ### The canonical form is determined by the entries (R50) -/

section
variable {α : Type} {d : α} {m n : Table α} {k size : Nat}

theorem Table.read_of_unlisted (h : ∀ c ∈ m, c.1 ≠ k) : Table.read d m k = d := by
  induction m with
  | nil => rfl
  | cons c m ih =>
    obtain ⟨hc, hm⟩ := List.forall_mem_cons.mp h
    rw [Table.read, if_neg hc, ih hm]

variable [DecidableEq α]

theorem Table.wf_iff : Table.wf d size m = true ↔ Table.rising 0 m = true ∧ ∀ c ∈ m, c.1 < size ∧ c.2 ≠ d := by
  simp [Table.wf]

theorem Table.read_beyond (h : Table.wf d size m = true) (hk : size ≤ k) : Table.read d m k = d :=
  Table.read_of_unlisted fun c hc => (((Table.wf_iff.mp h).2 c hc).1.trans_le hk).ne

/-- Canonical tables over an index space of `w` bits that read the same at every index are the same list. -/
theorem Table.eq_of_wf_of_read_eq {w : Nat} (hm : Table.wf d (2 ^ w) m = true) (hn : Table.wf d (2 ^ w) n = true)
    (h : ∀ i : BitVec w, Table.read d m i.toNat = Table.read d n i.toNat) : m = n := by
  obtain ⟨risingM, entriesM⟩ := Table.wf_iff.mp hm
  obtain ⟨risingN, entriesN⟩ := Table.wf_iff.mp hn
  refine Table.eq_of_read_eq risingM risingN (fun c hc => (entriesM c hc).2) (fun c hc => (entriesN c hc).2) fun k => ?_
  by_cases hk : k < 2 ^ w
  · exact h (BitVec.ofNatLT k hk)
  · rw [Table.read_beyond hm (not_lt.mp hk), Table.read_beyond hn (not_lt.mp hk)]

end

theorem Memory.wf_iff {s : State} : Memory.wf s = true ↔ Table.wf 0#32 Config.nsyms s.hist = true ∧
    Table.wf noCode Config.nsyms s.ct = true ∧ Table.wf noNode Config.nnodes s.tn = true := by
  simp [Memory.wf, and_assoc]

/-- Settles O30: `Table.eq_of_wf_of_read_eq` for each memory, with symbols of 8 bits and node indices of 9. -/
theorem tablesWithTheSameEntriesAreEqual : Obligations.TablesWithTheSameEntriesAreEqual := by
  intro s t hs ht
  obtain ⟨histS, ctS, tnS⟩ := Memory.wf_iff.mp hs
  obtain ⟨histT, ctT, tnT⟩ := Memory.wf_iff.mp ht
  exact ⟨Table.eq_of_wf_of_read_eq (w := 8) histS histT, Table.eq_of_wf_of_read_eq (w := 8) ctS ctT,
    Table.eq_of_wf_of_read_eq (w := 9) tnS tnT⟩

end Sys2Proof.Machine
end

section
/-!
Settles O1, O2, O3 and O5: `decode` and `encode` are inverse to each other (R79). A format's decoder reads back what its encoder wrote
(Laws/Decode.lean); conversely, a word with 0 in its reserved bits is its opcode and its format's fields put together, which is the word
that the format's encoder writes.
-/

namespace Sys2Proof

/-- Settles O1: the opcode picks the format (`decode_of_op_…`), whose decoder reads the operands back. -/
theorem decodeInvertsEncode : Obligations.DecodeInvertsEncode := by
  intro i hi
  cases i with
  | nop => exact (decode_of_op_nop (opField_encodeZ _)).trans (decodeZ_encodeZ _ _)
  | reset => exact (decode_of_op_reset (opField_encodeZ _)).trans (decodeZ_encodeZ _ _)
  | rdStatus => exact (decode_of_op_rdStatus (opField_encodeZ _)).trans (decodeZ_encodeZ _ _)
  | faClr => exact (decode_of_op_faClr (opField_encodeZ _)).trans (decodeZ_encodeZ _ _)
  | faPush sym => exact (decode_of_op_faPush (opField_encodeS _ _)).trans (decodeS_encodeS _ _ _)
  | faRd sym => exact (decode_of_op_faRd (opField_encodeS _ _)).trans (decodeS_encodeS _ _ _)
  | ctClr => exact (decode_of_op_ctClr (opField_encodeZ _)).trans (decodeZ_encodeZ _ _)
  | ctSet sym n bits => exact (decode_of_op_ctSet (opField_encodeC _ _ _ _)).trans (decodeC_encodeC _ _ _ _ _ hi)
  | ctApp sym n bits => exact (decode_of_op_ctApp (opField_encodeC _ _ _ _)).trans (decodeC_encodeC _ _ _ _ _ hi)
  | bpPush sym => exact (decode_of_op_bpPush (opField_encodeS _ _)).trans (decodeS_encodeS _ _ _)
  | bpEnd => exact (decode_of_op_bpEnd (opField_encodeZ _)).trans (decodeZ_encodeZ _ _)
  | bpRdpad => exact (decode_of_op_bpRdpad (opField_encodeZ _)).trans (decodeZ_encodeZ _ _)
  | tnClr => exact (decode_of_op_tnClr (opField_encodeZ _)).trans (decodeZ_encodeZ _ _)
  | tnWr idx leaf lp rp left right sym =>
    exact (decode_of_op_tnWr (opField_encodeT _ _ _ _ _ _ _ _)).trans (decodeT_encodeT _ _ _ _ _ _ _ _ hi)
  | buCfg pad nsym => exact (decode_of_op_buCfg (opField_encodeB _ _ _)).trans (decodeB_encodeB _ _ _)
  | buByte b => exact (decode_of_op_buByte (opField_encodeS _ _)).trans (decodeS_encodeS _ _ _)
  | buEnd => exact (decode_of_op_buEnd (opField_encodeZ _)).trans (decodeZ_encodeZ _ _)

/-! ### A field whose top bits are 0 -/

/-- Such a field is its low part behind zeros. -/
theorem zero_append_setWidth {n m : Nat} {f : BitVec (n + m)} (zero : f.extractLsb' m n = 0#n) :
    0#n ++ f.setWidth m = f := by
  rw [← zero, BitVec.setWidth_eq_extractLsb' (by omega)]
  simp

theorem ofBool_getLsbD {n : Nat} (x : BitVec n) (k : Nat) : BitVec.ofBool (x.getLsbD k) = x.extractLsb' k 1 := by
  apply BitVec.eq_of_getLsbD_eq
  intro j hj
  obtain rfl : j = 0 := by omega
  simp

/-! ### The fields of a format, put together, are the word -/

section
variable {w : CommandWord} {i : Instr}

theorem encodeZ_fields (zero : w.extractLsb' 0 56 = 0#56) : encodeZ (opField w) = w := by
  rw [encodeZ, ← zero, opField, extract_append_extract w 0 56 8, extract_self]

theorem encodeS_fields (zero : w.extractLsb' 8 48 = 0#48) : encodeS (opField w) (lowField w) = w := by
  rw [encodeS, ← zero, opField, lowField, extract_append_extract w 8 48 8, extract_append_extract w 0 8 56, extract_self]

theorem encodeC_fields (zero : w.extractLsb' 32 8 = 0#8) :
    encodeC (opField w) (chunkSymField w) (chunkLenField w) (wordField w) = w := by
  rw [encodeC, ← zero, opField, chunkSymField, chunkLenField, wordField, extract_append_extract w 48 8 8,
    extract_append_extract w 40 8 16, extract_append_extract w 32 8 24, extract_append_extract w 0 32 32, extract_self]

theorem encodeT_fields (bit52 : w.getLsbD 52 = false) (zero : w.extractLsb' 8 8 = 0#8) (idx : indexFits (idxField w) = true)
    (left : indexFits (leftField w) = true) (right : indexFits (rightField w) = true) :
    encodeT (opField w) ((idxField w).setWidth 9) (leafField w) (lpField w) (rpField w) ((leftField w).setWidth 9)
      ((rightField w).setWidth 9) (lowField w) = w := by
  simp only [indexFits, beq_iff_eq] at idx left right
  have h52 : 0#1 = w.extractLsb' 52 1 := by rw [← ofBool_getLsbD, bit52]; rfl
  rw [encodeT, zero_append_setWidth idx, zero_append_setWidth left, zero_append_setWidth right, ← zero, h52, leafField, lpField,
    rpField, ofBool_getLsbD, ofBool_getLsbD, ofBool_getLsbD, opField, idxField, leftField, rightField, lowField,
    extract_append_extract w 55 1 8, extract_append_extract w 54 1 9, extract_append_extract w 53 1 10,
    extract_append_extract w 52 1 11, extract_append_extract w 40 12 12, extract_append_extract w 28 12 24,
    extract_append_extract w 16 12 36, extract_append_extract w 8 8 48, extract_append_extract w 0 8 56, extract_self]

theorem encodeB_fields (zero : w.extractLsb' 40 16 = 0#16) (fits : (padField w).toNat ≤ 7) :
    encodeB (opField w) ((padField w).setWidth 3) (wordField w) = w := by
  have hpad : (padField w).extractLsb' 3 5 = 0#5 :=
    BitVec.eq_of_toNat_eq (by simp [Nat.shiftRight_eq_div_pow]; omega)
  rw [encodeB, ← zero, zero_append_setWidth hpad, opField, padField, wordField, extract_append_extract w 40 16 8,
    extract_append_extract w 32 8 24, extract_append_extract w 0 32 32, extract_self]

/-! ### The word of a decoded command -/

theorem encodeZ_of_decodeZ {j : Instr} {op : BitVec 8} (hop : opField w = op) (h : decodeZ j w = .ok i) :
    j = i ∧ encodeZ op = w := by
  simp only [decodeZ, require_eq_ok, beq_iff_eq, Except.ok.injEq] at h
  obtain ⟨zero, hi⟩ := h
  exact ⟨hi, hop ▸ encodeZ_fields zero⟩

theorem encodeS_of_decodeS {make : BitVec 8 → Instr} {op : BitVec 8} (hop : opField w = op) (h : decodeS make w = .ok i) :
    make (lowField w) = i ∧ encodeS op (lowField w) = w := by
  simp only [decodeS, require_eq_ok, beq_iff_eq, Except.ok.injEq] at h
  obtain ⟨zero, hi⟩ := h
  exact ⟨hi, hop ▸ encodeS_fields zero⟩

theorem encodeC_of_decodeC {make : Symbol → BitVec 8 → BitVec 32 → Instr} {op : BitVec 8} (hop : opField w = op)
    (h : decodeC make w = .ok i) :
    make (chunkSymField w) (chunkLenField w) (wordField w) = i ∧
      encodeC op (chunkSymField w) (chunkLenField w) (wordField w) = w := by
  simp only [decodeC, require_eq_ok, beq_iff_eq, Except.ok.injEq] at h
  obtain ⟨zero, -, -, hi⟩ := h
  exact ⟨hi, hop ▸ encodeC_fields zero⟩

theorem encode_of_decodeT (hop : opField w = 0x41#8) (h : decodeT w = .ok i) : encode i = w := by
  simp only [decodeT, require_eq_ok, Bool.and_eq_true, Bool.not_eq_true', beq_iff_eq, Except.ok.injEq] at h
  obtain ⟨⟨bit52, zero⟩, ⟨⟨idx, left⟩, right⟩, -, -, -, rfl⟩ := h
  rw [encode, ← hop, encodeT_fields bit52 zero idx left right]

theorem encode_of_decodeB (hop : opField w = 0x50#8) (h : decodeB w = .ok i) : encode i = w := by
  simp only [decodeB, require_eq_ok, beq_iff_eq, decide_eq_true_eq, Except.ok.injEq] at h
  obtain ⟨zero, fits, rfl⟩ := h
  rw [encode, ← hop, encodeB_fields zero fits]

/-- A word that decodes is the word of its command (R79). -/
theorem encode_of_decode (h : decode w = .ok i) : encode i = w := by
  unfold decode at h
  split at h
  -- format Z
  case h_1 hop | h_2 hop | h_3 hop | h_4 hop | h_7 hop | h_11 hop | h_12 hop | h_13 hop | h_17 hop =>
    obtain ⟨rfl, hw⟩ := encodeZ_of_decodeZ hop h
    exact hw
  -- format S
  case h_5 hop | h_6 hop | h_10 hop | h_16 hop =>
    obtain ⟨rfl, hw⟩ := encodeS_of_decodeS hop h
    exact hw
  -- format C: CT_SET and CT_APP
  case h_8 hop | h_9 hop =>
    obtain ⟨rfl, hw⟩ := encodeC_of_decodeC hop h
    exact hw
  -- format T: TN_WR
  case h_14 hop => exact encode_of_decodeT hop h
  -- format B: BU_CFG
  case h_15 hop => exact encode_of_decodeB hop h
  -- no row of the opcode map
  case h_18 => cases h

end

/-- Settles O2: the checks of the format are the operand limits (`wellFormed_of_decode`) and the 0 in the reserved bits
(`encode_of_decode`). -/
theorem encodeInvertsDecode : Obligations.EncodeInvertsDecode :=
  fun _ _ h => ⟨wellFormed_of_decode h, encode_of_decode h⟩

namespace Laws

/-- The word of every command matches the command's row of the opcode map (R78). -/
theorem encodesItsRow (i : Instr) : EncodesItsRow.Statement i := by
  cases i with
  | nop => exact EncodesItsRow.nop
  | reset => exact EncodesItsRow.reset
  | rdStatus => exact EncodesItsRow.rdStatus
  | faClr => exact EncodesItsRow.faClr
  | faPush sym => exact EncodesItsRow.faPush sym
  | faRd sym => exact EncodesItsRow.faRd sym
  | ctClr => exact EncodesItsRow.ctClr
  | ctSet sym n bits => exact EncodesItsRow.ctSet sym n bits
  | ctApp sym n bits => exact EncodesItsRow.ctApp sym n bits
  | bpPush sym => exact EncodesItsRow.bpPush sym
  | bpEnd => exact EncodesItsRow.bpEnd
  | bpRdpad => exact EncodesItsRow.bpRdpad
  | tnClr => exact EncodesItsRow.tnClr
  | tnWr idx leaf lp rp left right sym => exact EncodesItsRow.tnWr idx leaf lp rp left right sym
  | buCfg pad nsym => exact EncodesItsRow.buCfg pad nsym
  | buByte b => exact EncodesItsRow.buByte b
  | buEnd => exact EncodesItsRow.buEnd

end Laws

/-- Settles O3: a word that decodes is the word of its command (`encode_of_decode`), which matches its row. -/
theorem legalWordMatchesItsTableRow : Obligations.LegalWordMatchesItsTableRow := by
  intro w i h
  have row : encode i &&& tableMask i = tableMatch i := Laws.encodesItsRow i
  rwa [encode_of_decode h] at row

/-- Settles O5: the decoder evaluates on the written-out words. -/
theorem specWordsDecodeToTheirCommands : Obligations.SpecWordsDecodeToTheirCommands :=
  ⟨rfl, rfl, rfl, rfl, rfl, rfl⟩

end Sys2Proof
end

section
/-!
Settles O4: each format's checks fail on exactly the words that R80 lists for it, and an opcode fits no format exactly when it is
unassigned; the fault of R193 is then the discard check on `execIllegal`.
-/

namespace Sys2Proof.Machine

section
variable {w : CommandWord}

/-! ### Fields as numbers (R7) -/

theorem toNat_extract (lo n : Nat) : (w.extractLsb' lo (n + 1)).toNat = bitField w (lo + n) lo := by
  rw [bitField, BitVec.extractLsb'_toNat, Nat.shiftRight_eq_div_pow, Nat.add_assoc, Nat.add_sub_cancel_left]

theorem extract_eq_zero_iff (lo n : Nat) : w.extractLsb' lo (n + 1) = 0#(n + 1) ↔ bitField w (lo + n) lo = 0 := by
  rw [← toNat_extract, ← BitVec.toNat_inj, BitVec.toNat_ofNat, Nat.zero_mod]

theorem getLsbD_eq_true_iff (k : Nat) : w.getLsbD k = true ↔ bitField w k k = 1 := by
  simp [bitField, BitVec.getLsbD, Nat.testBit_eq_decide_div_mod_eq]

theorem getLsbD_eq_false_iff (k : Nat) : w.getLsbD k = false ↔ bitField w k k = 0 := by
  simp [bitField, BitVec.getLsbD, Nat.testBit_eq_decide_div_mod_eq]

theorem indexFits_extract_eq_false (lo : Nat) :
    indexFits (w.extractLsb' lo 12) = false ↔ 511 < bitField w (lo + 11) lo := by
  have value : (w.extractLsb' lo 12).toNat = bitField w (lo + 11) lo := toNat_extract lo 11
  rw [← value, indexFits, beq_eq_false_iff_ne, ne_eq, ← BitVec.toNat_inj, BitVec.extractLsb'_toNat,
    Nat.shiftRight_eq_div_pow, BitVec.toNat_ofNat]
  omega

theorem bitField_op {op : BitVec 8} (hop : opField w = op) : bitField w 63 56 = op.toNat :=
  hop ▸ (toNat_extract 56 7).symm

theorem opField_mem_of_assigned (h : bitField w 63 56 ∈ assignedOpcodes) :
    opField w ∈ assignedOpcodes.map (BitVec.ofNat 8) :=
  List.mem_map.mpr ⟨_, h, by rw [bitField_op rfl, BitVec.ofNat_toNat, BitVec.setWidth_eq]⟩

/-! ### The words that fail a format's checks -/

theorem require_eq_error {holds : Bool} {why : Illegal} {rest : Except Illegal Instr} :
    (∃ e, require holds why rest = .error e) ↔ holds = false ∨ ∃ e, rest = .error e := by
  cases holds <;> simp [require]

theorem decodeZ_error_iff {i : Instr} : (∃ e, decodeZ i w = .error e) ↔ bitField w 55 0 ≠ 0 := by
  simp [decodeZ, require_eq_error, extract_eq_zero_iff]

theorem decodeS_error_iff {make : BitVec 8 → Instr} : (∃ e, decodeS make w = .error e) ↔ bitField w 55 8 ≠ 0 := by
  simp [decodeS, require_eq_error, extract_eq_zero_iff]

theorem decodeC_error_iff {make : Symbol → BitVec 8 → BitVec 32 → Instr} : (∃ e, decodeC make w = .error e) ↔
    bitField w 39 32 ≠ 0 ∨ 32 < bitField w 47 40 ∨ bitField w 31 0 / 2 ^ bitField w 47 40 ≠ 0 := by
  simp [decodeC, require_eq_error, chunkLenField, wordField, toNat_extract, extract_eq_zero_iff, -BitVec.extractLsb'_toNat]

theorem decodeT_error_iff : (∃ e, decodeT w = .error e) ↔
    (bitField w 52 52 ≠ 0 ∨ bitField w 15 8 ≠ 0) ∨
    511 < bitField w 51 40 ∨ 511 < bitField w 39 28 ∨ 511 < bitField w 27 16 ∨
    (bitField w 55 55 = 1 ∧ (bitField w 54 54 = 1 ∨ bitField w 53 53 = 1)) ∨
    (bitField w 55 55 = 0 ∧ bitField w 7 0 ≠ 0) ∨
    (bitField w 54 54 = 0 ∧ bitField w 39 28 ≠ 0) ∨
    (bitField w 53 53 = 0 ∧ bitField w 27 16 ≠ 0) := by
  have bit52 : w.getLsbD 52 = true ↔ bitField w 52 52 ≠ 0 := by
    rw [ne_eq, ← getLsbD_eq_false_iff, Bool.not_eq_false]
  simp only [decodeT, require_eq_error, Bool.and_eq_false_iff, Bool.or_eq_false_iff, Bool.not_eq_false', beq_eq_false_iff_ne, ne_eq,
    idxField, leftField, rightField, lowField, leafField, lpField, rpField, bit52, indexFits_extract_eq_false, extract_eq_zero_iff,
    getLsbD_eq_true_iff 55, getLsbD_eq_true_iff 54, getLsbD_eq_true_iff 53, getLsbD_eq_false_iff, Nat.reduceAdd,
    reduceCtorEq, exists_false, or_false, or_assoc]

theorem decodeB_error_iff : (∃ e, decodeB w = .error e) ↔ bitField w 55 40 ≠ 0 ∨ 7 < bitField w 39 32 := by
  simp [decodeB, require_eq_error, padField, toNat_extract, extract_eq_zero_iff, -BitVec.extractLsb'_toNat]

/-- The words that do not decode are the words that R80 lists. With the opcode known, the list says what its format's check says. -/
theorem decode_error_iff : (∃ e, decode w = .error e) ↔ listedIllegal w := by
  unfold decode
  split
  -- format Z
  case h_1 hop | h_2 hop | h_3 hop | h_4 hop | h_7 hop | h_11 hop | h_12 hop | h_13 hop | h_17 hop =>
    simp [decodeZ_error_iff, listedIllegal, assignedOpcodes, bitField_op hop]
  -- format S
  case h_5 hop | h_6 hop | h_10 hop | h_16 hop =>
    simp [decodeS_error_iff, listedIllegal, assignedOpcodes, bitField_op hop]
  -- format C: CT_SET and CT_APP
  case h_8 hop | h_9 hop => simp [decodeC_error_iff, listedIllegal, assignedOpcodes, bitField_op hop]
  -- format T: TN_WR
  case h_14 hop => simp [decodeT_error_iff, listedIllegal, assignedOpcodes, bitField_op hop]
  -- format B: BU_CFG
  case h_15 hop => simp [decodeB_error_iff, listedIllegal, assignedOpcodes, bitField_op hop]
  -- no row of the opcode map: an assigned opcode would have been one of the rows above
  case h_18 =>
    refine iff_of_true ⟨_, rfl⟩ (.inl fun assigned => ?_)
    have hop := opField_mem_of_assigned assigned
    simp_all [assignedOpcodes]

end

/-- Settles O4: `decode_error_iff` for the list; an illegal word is discarded or faults by the discard check (R193, R197). -/
theorem illegalWordsAreTheListedOnesAndFault : Obligations.IllegalWordsAreTheListedOnesAndFault := by
  refine ⟨fun w => decode_error_iff, by decide +kernel, fun s w word listed => ?_⟩
  obtain ⟨why, illegal⟩ := decode_error_iff.mpr listed
  rw [step_of_some word, execWord_of_illegal illegal, execIllegal]
  exact ⟨fun clear => runChecked_of_clear clear, fun faulted => runChecked_of_faulted faulted⟩

end Sys2Proof.Machine
end

section
/-!
Settles O6 and O36: the value of a code chunk (R75), and the answers of `FA_DUMP` (R83).
-/

namespace Sys2Proof.Machine

/-! ### The value of a chunk -/

theorem bitsValue_append_singleton (c : List Bool) (b : Bool) : bitsValue (c ++ [b]) = 2 * bitsValue c + b.toNat := by
  simp [bitsValue]

/-- The low `n` bits of a number, the most significant first, have the value of that part of the number: the last of them is its parity,
and those before it are the low bits of its half. -/
theorem bitsValue_lowBits (v n : Nat) : bitsValue ((List.range n).map fun i => v.testBit (n - 1 - i)) = v % 2 ^ n := by
  induction n generalizing v with
  | zero => simp [bitsValue, Nat.mod_one]
  | succ n ih =>
    have front : (List.range n).map (fun i => v.testBit (n + 1 - 1 - i)) =
        (List.range n).map fun i => (v / 2).testBit (n - 1 - i) := by
      apply List.map_congr_left
      intro i hi
      have hi := List.mem_range.mp hi
      rw [show n + 1 - 1 - i = n - 1 - i + 1 by omega, Nat.testBit_succ]
    rw [List.range_succ, List.map_append, front, List.map_singleton, bitsValue_append_singleton, ih, Nat.add_sub_cancel,
      Nat.sub_self, Nat.toNat_testBit, Nat.pow_zero, Nat.div_one, Nat.pow_succ', Nat.mod_mul, Nat.add_comm]

/-- Settles O6: length and elements are those of `chunkBits`, and `bits` is all in its low `n` bits (`bitsValue_lowBits`). -/
theorem chunkIsTheCarriedBitsFirstBitMostSignificant : Obligations.ChunkIsTheCarriedBitsFirstBitMostSignificant := by
  intro n bits _ hbits
  refine ⟨length_chunkBits n bits, fun i hi => ?_, ?_⟩
  · rw [List.getElem?_eq_getElem (by simpa using hi), getElem_chunkBits]
  · exact (bitsValue_lowBits bits.toNat n.toNat).trans (Nat.mod_eq_of_lt hbits)

/-! ### Reads of counts, one after the other -/

@[simp] theorem State.histRead_emitRsp (s : State) (w : ResponseWord) (k : Symbol) :
    (s.emitRsp w).histRead k = s.histRead k := rfl

theorem execAll_faRd {s : State} (clear : s.err = 0#4) (ks : List Symbol) :
    execAll (ks.map .faRd) s = .next { s with rsp := s.rsp ++ ks.map s.histRead } := by
  induction ks generalizing s with
  | nil => simp [execAll]
  | cons k ks ih =>
    have first : exec (.faRd k) s = .next (s.emitRsp (s.histRead k)) := by
      rw [exec, execFaRd, runChecked_of_clear clear]
      rfl
    simp [execAll, first, ih (s := s.emitRsp (s.histRead k)) clear]

/-- Settles O36: `FA_DUMP` is the reads of the symbols 0 to 255 in order. -/
theorem faDumpAnswersEveryCount : Obligations.FaDumpAnswersEveryCount := by
  intro s clear
  simpa [faDump, Function.comp_def] using execAll_faRd clear ((List.range 256).map (BitVec.ofNat 8))

end Sys2Proof.Machine
end

section
/-!
Settles O33, O34, O35, O37 and O38: the frequency accumulator's commands (R101 to R103), and the counts that a list of commands leaves. Over
a list without `RESET` and `FA_CLR` each count grows by the number of its symbol's pushes that did not fault (`histRead_of_execAll`). Those
pushes are the elements of one list of symbols (`countedPushes_eq_countP`), whose counts over all symbols add up to its length, and they are
all pushes when no fault is left at the end.
-/

namespace Sys2Proof.Machine

/-! ### The three commands -/

/-- Settles O33: with ERR = 0 the effect is `State.histClear`. -/
theorem faClrZeroesEveryCount : Obligations.FaClrZeroesEveryCount := by
  intro s clear
  obtain ⟨t, h, e⟩ := exec_effect .faClr s
  cases e with
  | faClr => exact ⟨_, h, s.histRead_histClear, rfl⟩
  | discarded => contradiction

/-- A count that is not full has room for one more, so the addition does not wrap. -/
theorem toNat_add_one_of_room {c : Count} (room : c ≠ Config.maxCount) : (c + 1#32).toNat = c.toNat + 1 := by
  bv_omega

/-- Settles O34: with ERR = 0 there is one effect with room and one without. -/
theorem faPushCountsItsSymbolOnce : Obligations.FaPushCountsItsSymbolOnce := by
  constructor
  · intro s sym clear room
    obtain ⟨t, h, e⟩ := exec_effect (.faPush sym) s
    cases e with
    | faPush => exact ⟨_, h, by simp [toNat_add_one_of_room room], fun k hk => by simp [hk], rfl⟩
    | faPushFull | discarded => contradiction
  · intro s sym clear full
    obtain ⟨t, h, e⟩ := exec_effect (.faPush sym) s
    cases e with
    | faPushFull => exact h
    | faPush | discarded => contradiction

/-- Settles O35: with ERR = 0 the effect is `State.emitRsp` of the count. -/
theorem faRdAnswersTheCount : Obligations.FaRdAnswersTheCount := by
  intro s sym clear
  obtain ⟨t, h, e⟩ := exec_effect (.faRd sym) s
  cases e with
  | faRd => exact h
  | discarded => contradiction

/-! ### The counted pushes of a list of commands -/

section
variable {i : Instr} {is : List Instr} {s m t : State}

theorem execAll_cons (h : exec i s = .next m) : execAll (i :: is) s = execAll is m := by
  simp only [execAll, h]

theorem countedSymbols_cons : countedSymbols (i :: is) = countedSymbols [i] ++ countedSymbols is :=
  List.filterMap_append (l := [i])

/-- The symbols that a command adds to the counts when it ends in a state: that of a push without a fault, else none. -/
def countedBy (i : Instr) (t : State) : List Symbol := if faulted t then [] else countedSymbols [i]

/-- The first command's share of the counted pushes, and the rest's. -/
theorem countedPushes_cons (p : Symbol → Bool) (h : exec i s = .next m) :
    countedPushes p (i :: is) s = (countedBy i m).countP p + countedPushes p is m := by
  simp only [countedPushes, h, countedBy]
  cases i with
  | faPush sym => cases faulted m <;> simp [countedSymbols, List.countP_cons]
  | _ => simp [countedSymbols]

/-- The counted pushes are counted elements of one list, whatever the predicate. -/
theorem countedPushes_eq_countP (is : List Instr) (s : State) :
    ∃ l : List Symbol, ∀ p, countedPushes p is s = l.countP p := by
  induction is generalizing s with
  | nil => exact ⟨[], fun _ => rfl⟩
  | cons i is ih =>
    obtain ⟨m, h, -⟩ := exec_effect i s
    obtain ⟨l, hl⟩ := ih m
    exact ⟨countedBy i m ++ l, fun p => by rw [countedPushes_cons p h, hl, List.countP_append]⟩

/-- One command: a push that does not fault makes its symbol's count one greater, and the other commands write no count (R39). -/
theorem histRead_of_exec (hr : i ≠ .reset) (hc : i ≠ .faClr) (h : exec i s = .next t) (k : Symbol) :
    (t.histRead k).toNat = (s.histRead k).toNat + (countedBy i t).count k := by
  have e := effect_of_exec h
  cases i with
  | reset | faClr => contradiction
  | faPush sym =>
    cases e with
    | faPush _ _ clear room =>
      by_cases hk : k = sym
      · simp [hk, countedBy, faulted, clear, countedSymbols, toNat_add_one_of_room room]
      · simp [hk, Ne.symm hk, countedBy, faulted, clear, countedSymbols]
    | faPushFull => simp [countedBy, faulted, faultCode]
    | discarded _ _ fault => simp [countedBy, faulted, fault]
  | _ =>
    have same : t.hist = s.hist := e.same (c := .hist) (by simp [writtenColumns])
    simp [State.histRead, same, countedBy, countedSymbols]

/-- Every count grows by the number of its symbol's pushes that do not fault. -/
theorem histRead_of_execAll (hr : Instr.reset ∉ is) (hc : Instr.faClr ∉ is) (h : execAll is s = .next t) (k : Symbol) :
    (t.histRead k).toNat = (s.histRead k).toNat + countedPushes (· == k) is s := by
  induction is generalizing s with
  | nil => cases h; rfl
  | cons i is ih =>
    obtain ⟨hri, hr⟩ := List.ne_and_not_mem_of_not_mem_cons hr
    obtain ⟨hci, hc⟩ := List.ne_and_not_mem_of_not_mem_cons hc
    obtain ⟨m, hm, -⟩ := exec_effect i s
    rw [execAll_cons hm] at h
    rw [ih hr hc h, histRead_of_exec hri.symm hci.symm hm, countedPushes_cons _ hm, List.count, Nat.add_assoc]

/-- A fault stays recorded until `RESET`, so a list without it that ends with no fault began with none. -/
theorem clear_of_execAll (hr : Instr.reset ∉ is) (h : execAll is s = .next t) (clear : t.err = 0#4) : s.err = 0#4 := by
  induction is generalizing s with
  | nil => cases h; exact clear
  | cons i is ih =>
    obtain ⟨hri, hr⟩ := List.ne_and_not_mem_of_not_mem_cons hr
    obtain ⟨m, hm, e⟩ := exec_effect i s
    rw [execAll_cons hm] at h
    have hclear := ih hr h
    obtain ⟨herr, -⟩ | ⟨herr, -⟩ := e.faultRecord hri.symm
    · exact herr ▸ hclear
    · exact herr

/-- When no fault is recorded at the end, every push has been counted. -/
theorem countedPushes_of_clear (p : Symbol → Bool) (hr : Instr.reset ∉ is) (h : execAll is s = .next t) (clear : t.err = 0#4) :
    countedPushes p is s = (countedSymbols is).countP p := by
  induction is generalizing s with
  | nil => rfl
  | cons i is ih =>
    obtain ⟨-, hr⟩ := List.ne_and_not_mem_of_not_mem_cons hr
    obtain ⟨m, hm, -⟩ := exec_effect i s
    rw [execAll_cons hm] at h
    have unfaulted : faulted m = false := (faulted_eq_false m).mpr (clear_of_execAll hr h clear)
    rw [countedPushes_cons p hm, ih hr h, countedSymbols_cons, List.countP_append, countedBy, unfaulted]
    rfl

end

/-! ### The sum of all counts (R104) -/

/-- The 256 symbols in order, those that `countSum` adds over. -/
def allSymbols : List Symbol := (List.range Config.nsyms).map (BitVec.ofNat 8)

theorem countSum_eq (s : State) : countSum s = (allSymbols.map fun k => (s.histRead k).toNat).sum := by
  rw [countSum, allSymbols, List.map_map]
  rfl

/-- Each symbol stands once among them. -/
theorem count_allSymbols (k : Symbol) : allSymbols.count k = 1 := by
  refine List.count_eq_one_of_mem ?_ (List.mem_map.mpr ⟨k.toNat, List.mem_range.mpr k.isLt, by simp⟩)
  refine List.Nodup.map_on (fun a ha b hb hab => ?_) List.nodup_range
  have hmod : a % 256 = b % 256 := congrArg BitVec.toNat hab
  rwa [Nat.mod_eq_of_lt (List.mem_range.mp ha), Nat.mod_eq_of_lt (List.mem_range.mp hb)] at hmod

/-- An element of a list is counted at one symbol alone, so the counts add up to the length. -/
theorem sum_count_allSymbols (l : List Symbol) : (allSymbols.map l.count).sum = l.length := by
  induction l with
  | nil => simp
  | cons a l ih =>
    have single : (allSymbols.map fun k => if a == k then 1 else 0).sum = 1 := by
      rw [List.sum_map_eq_nsmul_single a _ fun k hk _ => by simp [hk.symm], count_allSymbols]
      simp
    simp only [List.count_cons, List.sum_map_add, ih, single, List.length_cons]

/-- Settles O37: from zero counts each count is that of its symbol's counted pushes, and the counts of one list's elements add up to its
length. -/
theorem countsAreTheNumbersOfPushes : Obligations.CountsAreTheNumbersOfPushes := by
  intro is s t zero hr hc h
  have counts (k : Symbol) : (t.histRead k).toNat = countedPushes (· == k) is s := by
    simpa [zero] using histRead_of_execAll hr hc h k
  refine ⟨counts, ?_⟩
  obtain ⟨l, hl⟩ := countedPushes_eq_countP is s
  calc countSum t
      = (allSymbols.map l.count).sum := by simp only [countSum_eq, counts, hl]; rfl
    _ = l.length := sum_count_allSymbols l
    _ = countedPushes (fun _ => true) is s := by rw [hl, List.countP_true]

/-- Settles O38: without a fault at the end each count has grown by its symbol's number of pushes in the list, the same for both. -/
theorem countsDoNotDependOnTheOrderOfPushes : Obligations.CountsDoNotDependOnTheOrderOfPushes := by
  intro is₁ is₂ s t₁ t₂ hr₁ hc₁ hr₂ hc₂ same h₁ h₂ clear₁ clear₂ k
  refine BitVec.eq_of_toNat_eq ?_
  rw [histRead_of_execAll hr₁ hc₁ h₁, histRead_of_execAll hr₂ hc₂ h₂, countedPushes_of_clear _ hr₁ h₁ clear₁,
    countedPushes_of_clear _ hr₂ h₂ clear₂]
  exact congrArg _ (same k)

end Sys2Proof.Machine
end

section
/-!
Settles O39, O40, O41 and O42: the code table's commands (R110 to R112), and the loading law of `CT_CODE` (R113). The chunk of a bit string
of at most 32 bits is that string (`chunkBits_string`), so each `CT_APP` of the expansion puts the next 32 bits behind the ones loaded.
-/

namespace Sys2Proof.Machine

/-! ### The commands on a state without a fault -/

section
variable {s : State} {sym : Symbol} {n : BitVec 8} {bits : BitVec 32}

theorem exec_ctClr (clear : s.err = 0#4) : exec .ctClr s = .next s.ctClear := by
  obtain ⟨t, h, e⟩ := exec_effect .ctClr s
  cases e with
  | ctClr => exact h
  | discarded => contradiction

theorem exec_ctSet (clear : s.err = 0#4) :
    exec (.ctSet sym n bits) s = .next (s.ctWrite sym (codeEntry (chunkBits n bits))) := by
  obtain ⟨t, h, e⟩ := exec_effect (.ctSet sym n bits) s
  cases e with
  | ctSet => exact h
  | discarded => contradiction

theorem exec_ctApp_of_fits (clear : s.err = 0#4) (valid : (s.ctRead sym).valid = true)
    (fits : (s.ctRead sym).len.toNat + n.toNat ≤ 255) :
    exec (.ctApp sym n bits) s = .next (s.ctWrite sym (codeEntry (codeBits (s.ctRead sym) ++ chunkBits n bits))) := by
  obtain ⟨t, h, e⟩ := exec_effect (.ctApp sym n bits) s
  cases e with
  | ctApp => exact h
  | ctAppNoCode _ _ _ _ _ invalid => simp [valid] at invalid
  | ctAppTooLong _ _ _ _ _ _ long => exact absurd fits (Nat.not_le.mpr long)
  | discarded => contradiction

theorem exec_ctApp_of_noCode (clear : s.err = 0#4) (invalid : (s.ctRead sym).valid = false) :
    exec (.ctApp sym n bits) s = .next (s.enterFault .codeTable (tableInfo 1#4 sym)) := by
  obtain ⟨t, h, e⟩ := exec_effect (.ctApp sym n bits) s
  cases e with
  | ctAppNoCode => exact h
  | ctApp _ _ _ _ _ valid | ctAppTooLong _ _ _ _ _ valid => simp [invalid] at valid
  | discarded => contradiction

theorem exec_ctApp_of_long (clear : s.err = 0#4) (valid : (s.ctRead sym).valid = true)
    (long : 255 < (s.ctRead sym).len.toNat + n.toNat) :
    exec (.ctApp sym n bits) s = .next (s.enterFault .codeTable (tableInfo 2#4 sym)) := by
  obtain ⟨t, h, e⟩ := exec_effect (.ctApp sym n bits) s
  cases e with
  | ctAppTooLong => exact h
  | ctAppNoCode _ _ _ _ _ invalid => simp [valid] at invalid
  | ctApp _ _ _ _ _ _ fits => exact absurd fits (Nat.not_le.mpr long)
  | discarded => contradiction

theorem exec_bpPush_of_noCode (clear : s.err = 0#4) (invalid : (s.ctRead sym).valid = false) :
    exec (.bpPush sym) s = .next (s.enterFault .unknownSymbol (byteInfo sym)) := by
  obtain ⟨t, h, e⟩ := exec_effect (.bpPush sym) s
  cases e with
  | bpPushNoCode => exact h
  | bpPush _ _ _ valid => simp [invalid] at valid
  | discarded => contradiction

end

/-! ### The bits of a code, with zeros behind them -/

theorem getD_codeBits {e : CodeEntry} {i : Nat} (h : i < e.len.toNat) : (codeBits e).getD i false = e.code.getLsbD i := by
  rw [List.getD_eq_getElem _ _ (by simpa using h), getElem_codeBits]

theorem getD_chunkBits (n : BitVec 8) (bits : BitVec 32) (i : Nat) :
    (chunkBits n bits).getD i false = (decide (i < n.toNat) && bits.getLsbD (n.toNat - 1 - i)) := by
  by_cases h : i < n.toNat
  · rw [List.getD_eq_getElem _ _ (by simpa using h), getElem_chunkBits]
    simp [h]
  · rw [List.getD_eq_default _ _ (by simpa using h)]
    simp [h]

/-! ### CT_CLR, CT_SET and CT_APP -/

/-- Settles O39: the effect is `State.ctClear`, which leaves the pushes no code. -/
theorem ctClrEmptiesTheCodeTable : Obligations.CtClrEmptiesTheCodeTable := by
  intro s clear
  refine ⟨s.ctClear, exec_ctClr clear, s.ctRead_ctClear, rfl, fun sym => ?_⟩
  exact exec_bpPush_of_noCode clear (congrArg CodeEntry.valid (s.ctRead_ctClear sym))

/-- Settles O40: the entry written is `codeEntry` of the chunk. -/
theorem ctSetReplacesTheCode : Obligations.CtSetReplacesTheCode := by
  intro s sym n bits clear
  have short := length_chunkBits_le n bits
  refine ⟨_, exec_ctSet clear, ?_, ?_, fun i => ?_, fun k hk => by simp [hk], rfl⟩
  · simp
  · exact BitVec.eq_of_toNat_eq (by simp [codeEntry_len short])
  · rw [State.ctRead_ctWrite, if_pos rfl, codeEntry_code short, getD_chunkBits]

/-- Settles O41: the entry written is `codeEntry` of the code and then the chunk, when both together fit; the two faults are by
`exec_ctApp_of_noCode` and `exec_ctApp_of_long`. -/
theorem ctAppLengthensTheCode : Obligations.CtAppLengthensTheCode := by
  refine ⟨fun s sym n bits clear valid fits => ?_, fun s sym n bits => exec_ctApp_of_noCode,
    fun s sym n bits => exec_ctApp_of_long⟩
  have short : (codeBits (s.ctRead sym) ++ chunkBits n bits).length ≤ 255 := by simpa using fits
  refine ⟨_, exec_ctApp_of_fits clear valid fits, ?_, ?_, fun i hi => ?_, fun i => ?_, fun k hk => by simp [hk], rfl⟩
  · simp
  · simp [codeEntry_len short]
  · rw [State.ctRead_ctWrite, if_pos rfl, codeEntry_code short, List.getD_append _ _ _ _ (by simpa using hi), getD_codeBits hi]
  · rw [State.ctRead_ctWrite, if_pos rfl, codeEntry_code short, List.getD_append_right _ _ _ _ (by simp), length_codeBits,
      Nat.add_sub_cancel_left, getD_chunkBits]

/-! ### Bit strings as chunks (R82) -/

/-- The first bit of the string is the most significant one of its value. -/
theorem bitsValue_eq_fieldValue_reverse (c : List Bool) : bitsValue c = fieldValue c.reverse := by
  induction c using List.reverseRecOn with
  | nil => rfl
  | append_singleton c b ih => rw [bitsValue_append_singleton, ih, List.reverse_concat, fieldValue, Nat.add_comm]

/-- The chunk that carries a bit string's length and value is the string. -/
theorem chunkBits_string {c : List Bool} (h : c.length ≤ 32) :
    chunkBits (BitVec.ofNat 8 c.length) (BitVec.ofNat 32 (bitsValue c)) = c := by
  have hlen : (BitVec.ofNat 8 c.length).toNat = c.length := by
    rw [BitVec.toNat_ofNat]
    omega
  apply List.ext_getElem
  · simp [hlen]
  · intro i _ hi
    have position : c.length - 1 - i < c.reverse.length := by rw [List.length_reverse]; omega
    rw [getElem_chunkBits, hlen, BitVec.getLsbD_ofNat, bitsValue_eq_fieldValue_reverse, testBit_fieldValue,
      List.getD_eq_getElem _ _ position, List.getElem_reverse]
    simp only [show c.length - 1 - (c.length - 1 - i) = i by omega, show c.length - 1 - i < 32 by omega, decide_true, Bool.true_and]

/-! ### The expansion of CT_CODE (R83, R113) -/

section
variable {s : State} {sym : Symbol}

theorem exec_ctSetString {c : List Bool} (clear : s.err = 0#4) (h : c.length ≤ 32) :
    exec (ctSetString sym c) s = .next (s.ctWrite sym (codeEntry c)) := by
  rw [ctSetString, exec_ctSet clear, chunkBits_string h]

/-- A string appended to the code `p`. -/
theorem exec_ctAppString {p c : List Bool} (clear : s.err = 0#4) (h : c.length ≤ 32) (fits : p.length + c.length ≤ 255) :
    exec (ctAppString sym c) (s.ctWrite sym (codeEntry p)) = .next (s.ctWrite sym (codeEntry (p ++ c))) := by
  have hread : (s.ctWrite sym (codeEntry p)).ctRead sym = codeEntry p := by simp
  have short : p.length ≤ 255 := by omega
  have total : (codeEntry p).len.toNat + (BitVec.ofNat 8 c.length).toNat ≤ 255 := by
    rw [codeEntry_len short, BitVec.toNat_ofNat]
    omega
  rw [ctAppString, exec_ctApp_of_fits ((s.ctWrite_err sym _).trans clear) (by rw [hread]; rfl) (by rwa [hread]), hread,
    codeBits_codeEntry short, chunkBits_string h, State.ctWrite_ctWrite]

/-- From the code `p` the `CT_APP`s of the expansion leave `p` and then their whole string. -/
theorem execAll_ctAppChunks {k : Nat} {p c : List Bool} (clear : s.err = 0#4) (enough : c.length ≤ k)
    (fits : p.length + c.length ≤ 255) :
    execAll (ctAppChunks sym k c) (s.ctWrite sym (codeEntry p)) = .next (s.ctWrite sym (codeEntry (p ++ c))) := by
  induction k generalizing p c with
  | zero =>
    obtain rfl := List.eq_nil_of_length_eq_zero (Nat.le_zero.mp enough)
    rw [List.append_nil]
    rfl
  | succ k ih =>
    by_cases hc : c = []
    · subst hc
      rw [List.append_nil]
      rfl
    · have nonempty : 0 < c.length := List.length_pos_iff.mpr hc
      have first : exec (ctAppString sym (c.take 32)) (s.ctWrite sym (codeEntry p)) =
          .next (s.ctWrite sym (codeEntry (p ++ c.take 32))) :=
        exec_ctAppString clear (List.length_take_le _ _) (by rw [List.length_take]; omega)
      have rest : execAll (ctAppChunks sym k (c.drop 32)) (s.ctWrite sym (codeEntry (p ++ c.take 32))) =
          .next (s.ctWrite sym (codeEntry (p ++ c.take 32 ++ c.drop 32))) :=
        ih (by rw [List.length_drop]; omega) (by simp only [List.length_append, List.length_take, List.length_drop]; omega)
      rw [ctAppChunks, if_neg (by simpa using hc), execAll_cons first, rest, List.append_assoc, List.take_append_drop]

/-- The expansion of `CT_CODE` writes the string's entry and nothing else, whatever the entry was before. -/
theorem execAll_ctCode {c : List Bool} (clear : s.err = 0#4) (short : c.length ≤ 255) :
    execAll (ctCode sym c) s = .next (s.ctWrite sym (codeEntry c)) := by
  have first : exec (ctSetString sym (c.take 32)) s = .next (s.ctWrite sym (codeEntry (c.take 32))) :=
    exec_ctSetString clear (List.length_take_le _ _)
  have rest : execAll (ctAppChunks sym c.length (c.drop 32)) (s.ctWrite sym (codeEntry (c.take 32))) =
      .next (s.ctWrite sym (codeEntry (c.take 32 ++ c.drop 32))) :=
    execAll_ctAppChunks clear (by simp) (by rwa [← List.length_append, List.take_append_drop])
  rw [ctCode, execAll_cons first, rest, List.take_append_drop]

end

/-- Settles O42: the expansion's one write (`execAll_ctCode`) is of `codeEntry` of the string. -/
theorem ctCodeLoadsTheWholeString : Obligations.CtCodeLoadsTheWholeString := by
  intro s sym c clear short
  refine ⟨_, execAll_ctCode clear short, clear, ?_, ?_, fun i => ?_, fun k hk => by simp [hk], rfl⟩
  · simp
  · simp [codeEntry_len short]
  · rw [State.ctRead_ctWrite, if_pos rfl, codeEntry_code short]

end Sys2Proof.Machine
end

section
/-!
Settles O13, O24, O43, O44, O45 and O46: the bit packer's commands (R121 to R123), packing runs (R124 to R126), and how much one command
appends. What a command or a run of them packs is said by `Packs`, which the loop of R121 meets (`packs_pushBits`) and which composes
(`Packs.trans`); a `BP_END` then completes the last byte with zeros (`exec_bpEnd_flushes`).
-/

namespace Sys2Proof.Machine

/-! ### How much one command appends -/

theorem length_pko_pushBits (s : State) (bits : List Bool) :
    (pushBits s bits).pko.length = s.pko.length + (s.nbits.toNat + bits.length) / 8 := by
  rw [(pushBits_spec bits s).1, List.length_append, length_fullBytes, List.length_append, length_pendingBits]

/-- The seven pending bits and the 255 code bits that there can be at most fill 32 bytes (R121). -/
theorem Effect.length_pko_le {i : Instr} {s t : State} (e : Effect i s t) : t.pko.length ≤ s.pko.length + 32 := by
  cases e with
  | bpPush _ k =>
    have pending := s.nbits.isLt
    have code := (s.ctRead k).len.isLt
    rw [length_pko_pushBits, length_codeBits]
    omega
  | bpEnd => simp
  | _ => exact Nat.le_add_right _ _

theorem Effect.length_rsp_le {i : Instr} {s t : State} (e : Effect i s t) : t.rsp.length ≤ s.rsp.length + 1 := by
  cases e with
  | rdStatus | faRd | bpRdpad => simp
  | bpPush => rw [pushBits_eq]; exact Nat.le_add_right _ _
  | _ => exact Nat.le_add_right _ _

/-- A byte's bits give at most one symbol each (R152); only a `BU_END` with a leaf as the root can give more (R153). -/
theorem Effect.length_syo_le {i : Instr} {s t : State} (e : Effect i s t) :
    t.syo.length ≤ s.syo.length + 8 ∨ (i = .buEnd ∧ t.syo.length = s.syo.length + s.buNsym.toNat) := by
  cases e with
  | bpPush => rw [pushBits_eq]; exact .inl (Nat.le_add_right _ _)
  | buByte | buEnd | buEndMidPath =>
    next walked =>
    have symbols := walked.length_le
    simp only [length_byteBits, length_lastByteBits] at symbols
    exact .inl (by simp; omega)
  | buByteFault | buEndFault =>
    next bits walked fault =>
    have symbols := walked.length_le
    have walkedBits := congrArg List.length bits
    simp only [length_byteBits, length_lastByteBits, List.length_append] at walkedBits
    exact .inl (by simp; omega)
  | buEndLeafRoot => exact .inr ⟨rfl, by simp⟩
  | _ => exact .inl (Nat.le_add_right _ _)

/-- Settles O13: the three bounds are those of the paths of `Effect`. -/
theorem emissionsOfACommandAreBounded : Obligations.EmissionsOfACommandAreBounded := by
  intro i s t h
  have e := effect_of_exec h
  refine ⟨e.length_pko_le, e.length_rsp_le, ?_⟩
  obtain symbols | ⟨rfl, symbols⟩ := e.length_syo_le
  · exact ⟨by omega, fun _ => symbols⟩
  · exact ⟨by omega, fun other => absurd rfl other⟩

/-! ### The commands on a state without a fault -/

section
variable {s : State} {sym : Symbol}

theorem exec_bpPush_of_code (clear : s.err = 0#4) (valid : (s.ctRead sym).valid = true) :
    exec (.bpPush sym) s = .next (pushBits s (codeBits (s.ctRead sym))) := by
  obtain ⟨t, h, e⟩ := exec_effect (.bpPush sym) s
  cases e with
  | bpPush => exact h
  | bpPushNoCode _ _ _ invalid => simp [valid] at invalid
  | discarded => contradiction

theorem exec_bpEnd_of_pending (clear : s.err = 0#4) (pending : 0 < s.nbits.toNat) :
    exec .bpEnd s = .next { s.emitPko s.acc with pad := BitVec.ofNat 3 (8 - s.nbits.toNat), acc := 0#8, nbits := 0#3 } := by
  obtain ⟨t, h, e⟩ := exec_effect .bpEnd s
  cases e with
  | bpEnd => exact h
  | bpEndEmpty _ _ none => simp [none] at pending
  | discarded => contradiction

theorem exec_bpEnd_of_empty (clear : s.err = 0#4) (none : s.nbits = 0#3) : exec .bpEnd s = .next { s with pad := 0#3 } := by
  obtain ⟨t, h, e⟩ := exec_effect .bpEnd s
  cases e with
  | bpEndEmpty => exact h
  | bpEnd _ _ pending => simp [none] at pending
  | discarded => contradiction

/-- The padding count of a flush fits PAD, because a bit is pending. -/
theorem toNat_flushPad (pending : 0 < s.nbits.toNat) : (BitVec.ofNat 3 (8 - s.nbits.toNat)).toNat = 8 - s.nbits.toNat := by
  rw [BitVec.toNat_ofNat]
  omega

/-- Settles O45: with ERR = 0 the effect is `State.emitRsp` of the padding count. -/
theorem bpRdpadAnswersThePaddingCount : Obligations.BpRdpadAnswersThePaddingCount := by
  intro s clear
  obtain ⟨t, h, e⟩ := exec_effect .bpRdpad s
  cases e with
  | bpRdpad => exact h
  | discarded => contradiction

/-- Settles O44: a flush emits ACC, whose bits below the pending ones are 0 (`byteBits_acc`). -/
theorem bpEndFlushesWithZeroPadding : Obligations.BpEndFlushesWithZeroPadding := by
  refine ⟨fun s clear pending => ?_, fun s => exec_bpEnd_of_empty⟩
  refine ⟨_, exec_bpEnd_of_pending clear pending, rfl, toNat_flushPad pending, rfl, rfl, rfl, fun buffer => ?_⟩
  rw [byteBits_acc buffer, toNat_flushPad pending]

end

/-! ### Packing bits (R121, R124) -/

/-- From one state to another the bits went into the bit buffer behind the pending ones, and its complete bytes to PKO. -/
structure Packs (bits : List Bool) (s t : State) : Prop where
  /-- The complete bytes are appended. -/
  pko : t.pko = s.pko ++ fullBytes (pendingBits s ++ bits)
  /-- The rest is pending. -/
  pending : pendingBits t = leftover (pendingBits s ++ bits)
  /-- The bit buffer invariant (R27) is kept. -/
  buffer : BufferOk s → BufferOk t

theorem packs_pushBits (s : State) (bits : List Bool) : Packs bits s (pushBits s bits) :=
  ⟨(pushBits_spec bits s).1, (pushBits_spec bits s).2, fun buffer => pushBits_bufferOk buffer bits⟩

section
variable {s m t : State} {bits bits' : List Bool}

/-- What keeps the bit buffer and PKO packs no bits. -/
theorem Packs.of_same (buffer : Column.bitBuffer.same s t) (pko : Column.pko.same s t) : Packs [] s t := by
  obtain ⟨acc, nbits⟩ := buffer
  have short : (pendingBits s ++ []).length < 8 := by simpa using s.nbits.isLt
  refine ⟨?_, ?_, fun h => ?_⟩
  · rw [fullBytes_of_short short, List.append_nil]; exact pko
  · rw [leftover_of_short short, List.append_nil, pendingBits, acc, nbits]; rfl
  · rw [BufferOk, acc, nbits]; exact h

/-- The bytes do not depend on when they are emitted (R125). -/
theorem Packs.trans (first : Packs bits s m) (rest : Packs bits' m t) : Packs (bits ++ bits') s t where
  pko := by
    rw [rest.pko, first.pko, first.pending, ← List.append_assoc (pendingBits s), fullBytes_append (pendingBits s ++ bits) bits',
      List.append_assoc]
  pending := by rw [rest.pending, first.pending, ← leftover_append, List.append_assoc]
  buffer h := rest.buffer (first.buffer h)

theorem Packs.nbits (h : Packs bits s t) : t.nbits.toNat = (s.nbits.toNat + bits.length) % 8 := by
  rw [← length_pendingBits, h.pending, length_leftover, List.length_append, length_pendingBits]

end

/-- Settles O43: the loop of R121 packs the code's bits (`packs_pushBits`) and changes nothing but the buffer and PKO
(`pushBits_frame`). -/
theorem bpPushPacksTheCodeBits : Obligations.BpPushPacksTheCodeBits := by
  refine ⟨fun s sym clear buffer valid => ?_, fun s sym => exec_bpPush_of_noCode⟩
  have packs := packs_pushBits s (codeBits (s.ctRead sym))
  refine ⟨_, exec_bpPush_of_code clear valid, packs.pko, packs.pending, packs.buffer buffer, ?_, ?_, pushBits_frame _ s⟩
  · rw [length_pko_pushBits, length_codeBits]
  · rw [packs.nbits, length_codeBits]

/-! ### The flush completes the last byte with zeros (R122, R124) -/

theorem fullBytes_byteBits (b : Byte) : fullBytes (byteBits b) = [b] := by
  rw [← List.append_nil (byteBits b), fullBytes_group (length_byteBits b), packByte_byteBits, fullBytes_nil]

theorem paddingOf_mod (n : Nat) : paddingOf (n % 8) = paddingOf n := by
  rw [paddingOf, Nat.mod_mod, paddingOf]

theorem paddedBytes_eq (l : List Bool) :
    paddedBytes l = fullBytes l ++ fullBytes (leftover l ++ List.replicate (paddingOf l.length) false) :=
  fullBytes_append _ _

theorem length_paddedBytes (l : List Bool) : (paddedBytes l).length = (l.length + 7) / 8 := by
  rw [paddedBytes, length_fullBytes, List.length_append, List.length_replicate, paddingOf]
  omega

/-- With no bit pending ACC is 0 (R27). -/
theorem acc_eq_zero {s : State} (buffer : BufferOk s) (none : s.nbits = 0#3) : s.acc = 0#8 := by
  rw [BufferOk, none] at buffer
  exact BitVec.eq_of_toNat_eq ((Nat.mod_eq_of_lt s.acc.isLt).symm.trans buffer)

/-- A `BP_END` emits the pending bits and the zeros that complete a byte, none if no bit is pending, records how many zeros, and leaves
the bit buffer empty. -/
theorem exec_bpEnd_flushes {s : State} (clear : s.err = 0#4) (buffer : BufferOk s) :
    ∃ t, exec .bpEnd s = .next t ∧
      t.pko = s.pko ++ fullBytes (pendingBits s ++ List.replicate (paddingOf s.nbits.toNat) false) ∧
      t.pad.toNat = paddingOf s.nbits.toNat ∧ t.nbits = 0#3 ∧ t.acc = 0#8 := by
  by_cases none : s.nbits = 0#3
  · refine ⟨_, exec_bpEnd_of_empty clear none, ?_, ?_, none, acc_eq_zero buffer none⟩
    · simp [pendingBits, none, paddingOf]
    · simp [none, paddingOf]
  · have pending : 0 < s.nbits.toNat := by bv_omega
    have padding : paddingOf s.nbits.toNat = 8 - s.nbits.toNat := by
      rw [paddingOf]
      omega
    refine ⟨_, exec_bpEnd_of_pending clear pending, ?_, ?_, rfl, rfl⟩
    · rw [padding, ← byteBits_acc buffer, fullBytes_byteBits]
      rfl
    · exact (toNat_flushPad pending).trans padding.symm

/-! ### Packing runs (R124 to R126) -/

/-- The codes in CT of the symbols that a list of commands pushes, one after the other. -/
def packedCodes (s : State) (is : List Instr) : List Bool := (packedSymbols is).flatMap fun sym => codeBits (s.ctRead sym)

section
variable {i : Instr} {is : List Instr} {s m t : State}

theorem packedCodes_cons : packedCodes s (i :: is) = packedCodes s [i] ++ packedCodes s is := by
  have symbols : packedSymbols (i :: is) = packedSymbols [i] ++ packedSymbols is := List.filterMap_append (l := [i])
  rw [packedCodes, symbols, List.flatMap_append, packedCodes, packedCodes]

theorem packedCodes_bpPush (sym : Symbol) : packedCodes s [.bpPush sym] = codeBits (s.ctRead sym) := List.append_nil _

theorem packedCodes_congr (ct : t.ct = s.ct) : packedCodes t is = packedCodes s is := by
  simp only [packedCodes, State.ctRead, ct]

/-- No command of a packing run writes CT (R39). -/
theorem Effect.ct_of_inPackingRun (e : Effect i s t) (run : inPackingRun i = true) : t.ct = s.ct := by
  refine e.same (c := .ct) fun written => ?_
  cases i <;> simp_all [inPackingRun, writtenColumns]

/-- One command of a packing run without a fault: a push packs its symbol's code, and the others write neither the bit buffer nor PKO
(R39). -/
theorem Effect.packs (e : Effect i s t) (run : inPackingRun i = true) (clear : t.err = 0#4) : Packs (packedCodes s [i]) s t := by
  cases i with
  | bpPush sym =>
    rw [packedCodes_bpPush]
    cases e with
    | bpPush => exact packs_pushBits s _
    | bpPushNoCode => exact absurd clear (State.enterFault_err_ne_zero _ _ _)
    | discarded => contradiction
  | reset | ctClr | ctSet | ctApp | bpEnd => exact absurd run Bool.false_ne_true
  | _ => exact Packs.of_same (e.same (by simp [writtenColumns])) (e.same (by simp [writtenColumns]))

/-- A packing run without a fault packs the codes of the pushed symbols, read from CT as it was at the start. -/
theorem packs_of_execAll (run : ∀ i ∈ is, inPackingRun i = true) (h : execAll is s = .next t) (clear : t.err = 0#4) :
    Packs (packedCodes s is) s t := by
  induction is generalizing s with
  | nil =>
    cases h
    exact Packs.of_same (Column.same_refl _ _) (Column.same_refl _ _)
  | cons i is ih =>
    obtain ⟨runFirst, runRest⟩ := List.forall_mem_cons.mp run
    obtain ⟨m, hm, e⟩ := exec_effect i s
    rw [execAll_cons hm] at h
    have noReset : Instr.reset ∉ is := fun mem => absurd (runRest _ mem) Bool.false_ne_true
    have rest := ih runRest h
    rw [packedCodes_congr (e.ct_of_inPackingRun runFirst)] at rest
    rw [packedCodes_cons]
    exact (e.packs runFirst (clear_of_execAll noReset h clear)).trans rest

end

/-- Settles O46: from an empty buffer the run packs the concatenated codes (`packs_of_execAll`), and the `BP_END` completes their last byte
(`exec_bpEnd_flushes`). -/
theorem packingRunEmitsThePaddedCodes : Obligations.PackingRunEmitsThePaddedCodes := by
  intro is s t _ none acc run h clear bits
  have packs : Packs bits s t := packs_of_execAll run h clear
  have start : pendingBits s = [] := List.eq_nil_of_length_eq_zero (by simp [none])
  have buffer : BufferOk t := packs.buffer (by simp [BufferOk, acc])
  have nbits : t.nbits.toNat = bits.length % 8 := by simpa [none] using packs.nbits
  obtain ⟨pko, pending, -⟩ := packs
  rw [start, List.nil_append] at pko pending
  obtain ⟨u, hu, pkoEnd, pad, nbitsEnd, accEnd⟩ := exec_bpEnd_flushes clear buffer
  rw [nbits, paddingOf_mod] at pad pkoEnd
  refine ⟨pko, nbits, u, hu, ?_, length_paddedBytes bits, pad, nbitsEnd, accEnd⟩
  rw [pkoEnd, pko, pending, paddedBytes_eq, List.append_assoc]

/-! ### The state after both kinds of run (R126, R154, R232) -/

theorem Effect.nbits_of_bpEnd {s t : State} (e : Effect .bpEnd s t) (clear : s.err = 0#4) : t.nbits = 0#3 := by
  cases e with
  | bpEnd => rfl
  | bpEndEmpty => assumption
  | discarded => contradiction

/-- A `BU_END` that leaves no fault leaves no byte held. -/
theorem Effect.holdv_of_buEnd {s t : State} (e : Effect .buEnd s t) (clear : t.err = 0#4) : t.holdv = false := by
  cases e with
  | buEnd => rfl
  | buEndLeafRoot | buEndInnerRoot => assumption
  | buEndMidPath | buEndFault | buEndPadding | buEndNoRoot => exact absurd clear (State.enterFault_err_ne_zero _ _ _)
  | discarded => contradiction

/-- Settles O24: with no bit pending and no byte held the invariant, which both commands keep, gives ACC, HOLD and CUR. -/
theorem closedRunsLeaveACleanState : Obligations.ClosedRunsLeaveACleanState := by
  intro s t u hi clear hbp hbu clearEnd
  have packerEnd := effect_of_exec hbp
  have unpackerEnd := effect_of_exec hbu
  have inv : Invariant u := (hi.of_effect rfl packerEnd).of_effect rfl unpackerEnd
  have keepsBuffer : Column.bitBuffer.same t u := unpackerEnd.same (by simp [writtenColumns])
  have nbits : u.nbits = 0#3 := keepsBuffer.2.trans (packerEnd.nbits_of_bpEnd clear)
  have holdv : u.holdv = false := unpackerEnd.holdv_of_buEnd clearEnd
  refine ⟨?_, acc_eq_zero inv.buffer nbits, nbits, holdv, inv.hold holdv, inv.walker clearEnd holdv⟩
  simp [clean, clearEnd, nbits, holdv]

end Sys2Proof.Machine
end

section
/-!
Settles O47, O48 and O49: the tree memory's commands (R140, R141) and the load of a tree in preorder (R142). The load is followed on the
table alone (`HuffTree.loadInto`). It writes the entries of one range of indices and none outside it, so a parent's entry outlasts the loads
of its children, and the left child's entries outlast the load of the right one.
-/

namespace Sys2Proof.Machine

/-! ### TN_CLR and TN_WR -/

section
variable {s : State}

theorem exec_tnClr (clear : s.err = 0#4) : exec .tnClr s = .next s.tnClear := by
  obtain ⟨t, h, e⟩ := exec_effect .tnClr s
  cases e with
  | tnClr => exact h
  | discarded => contradiction

theorem exec_tnWr {idx left right : NodeIndex} {leaf lp rp : Bool} {sym : Symbol} (clear : s.err = 0#4) :
    exec (.tnWr idx leaf lp rp left right sym) s = .next (s.nodeWrite idx ⟨true, leaf, lp, rp, left, right, sym⟩) := by
  obtain ⟨t, h, e⟩ := exec_effect (.tnWr idx leaf lp rp left right sym) s
  cases e with
  | tnWr => exact h
  | discarded => contradiction

theorem exec_buEnd_of_noRoot (clear : s.err = 0#4) (none : s.holdv = false) (padding : s.buPad = 0#3)
    (invalid : (s.nodeRead Config.root).valid = false) :
    exec .buEnd s = .next (s.enterFault .corruptPayload (payloadInfo 1#4 Config.root)) := by
  obtain ⟨t, h, e⟩ := exec_effect .buEnd s
  cases e with
  | buEndNoRoot => exact h
  | buEndPadding => contradiction
  | buEndLeafRoot _ _ _ _ valid | buEndInnerRoot _ _ _ _ valid => simp [invalid] at valid
  | buEnd _ _ _ held | buEndMidPath _ _ _ _ held | buEndFault _ _ _ _ _ _ _ _ _ held => simp [none] at held
  | discarded => contradiction

end

/-- Settles O47: the effect is `State.tnClear`, in which neither a walk step nor a `BU_END` finds a valid entry. -/
theorem tnClrEmptiesTheTreeMemory : Obligations.TnClrEmptiesTheTreeMemory := by
  intro s clear
  refine ⟨s.tnClear, exec_tnClr clear, s.nodeRead_tnClear, rfl, fun bit => ?_, fun none padding => ?_⟩
  · exact walk_of_fault (.inl ⟨rfl, rfl, rfl⟩)
  · exact exec_buEnd_of_noRoot clear none padding rfl

/-- Settles O48: the effect is one `State.nodeWrite`. -/
theorem tnWrReplacesTheNode : Obligations.TnWrReplacesTheNode := by
  intro s idx leaf lp rp left right sym clear
  exact ⟨_, exec_tnWr clear, by simp, fun i hi => by simp [hi], rfl⟩

/-! ### The load of a tree in preorder (R142) -/

/-- The entry of a leaf. -/
def leafEntry (sym : Symbol) : TreeNode := ⟨true, true, false, false, 0#9, 0#9, sym⟩

/-- The entry of a node with both children, at two indices. -/
def parentEntry (left right : Nat) : TreeNode := ⟨true, false, true, true, BitVec.ofNat 9 left, BitVec.ofNat 9 right, 0#8⟩

/-- The table that a tree's `TN_WR` commands leave, the tree numbered in preorder from an index on (`execAll_load`). -/
def HuffTree.loadInto : HuffTree → Nat → Table TreeNode → Table TreeNode
  | .leaf sym, i, m => Table.write noNode m i (leafEntry sym)
  | .node l r, i, m =>
    let right := i + 1 + l.nodes
    r.loadInto right (l.loadInto (i + 1) (Table.write noNode m i (parentEntry (i + 1) right)))

/-- A tree takes one index for each of its nodes. -/
theorem HuffTree.load_next (tree : HuffTree) (i : Nat) : (tree.load i).2 = i + tree.nodes := by
  induction tree generalizing i with
  | leaf sym => rfl
  | node l r ihl ihr =>
    rw [HuffTree.load, HuffTree.nodes, ihl, ihr]
    omega

theorem execAll_append {is js : List Instr} {s m : State} (h : execAll is s = .next m) :
    execAll (is ++ js) s = execAll js m := by
  induction is generalizing s with
  | nil =>
    cases h
    rfl
  | cons i is ih =>
    obtain ⟨n, hn, -⟩ := exec_effect i s
    rw [execAll_cons hn] at h
    rw [List.cons_append, execAll_cons hn, ih h]

section
variable {i j : Nat} {tree : HuffTree} {m : Table TreeNode} {s : State}

theorem toNat_nodeIndex (h : i < 512) : (BitVec.ofNat 9 i).toNat = i := Nat.mod_eq_of_lt h

theorem exec_tnWrLeaf {sym : Symbol} (clear : s.err = 0#4) (h : i < 512) :
    exec (tnWrLeaf (BitVec.ofNat 9 i) sym) s = .next { s with tn := Table.write noNode s.tn i (leafEntry sym) } := by
  rw [tnWrLeaf, exec_tnWr clear, State.nodeWrite, toNat_nodeIndex h, leafEntry]

theorem exec_tnWrInt {left right : Nat} (clear : s.err = 0#4) (h : i < 512) :
    exec (tnWrInt (BitVec.ofNat 9 i) (some (BitVec.ofNat 9 left)) (some (BitVec.ofNat 9 right))) s =
      .next { s with tn := Table.write noNode s.tn i (parentEntry left right) } := by
  rw [tnWrInt, exec_tnWr clear, State.nodeWrite, toNat_nodeIndex h]
  rfl

/-- The commands of a load change TN as `HuffTree.loadInto` says, and nothing else. -/
theorem execAll_load (clear : s.err = 0#4) (fits : i + tree.nodes ≤ 512) :
    execAll (tree.load i).1 { s with tn := m } = .next { s with tn := tree.loadInto i m } := by
  induction tree generalizing i m with
  | leaf sym => exact execAll_cons (exec_tnWrLeaf clear fits)
  | node l r ihl ihr =>
    rw [HuffTree.nodes] at fits
    have fitsLeft : i + 1 + l.nodes ≤ 512 := by omega
    have fitsRight : i + 1 + l.nodes + r.nodes ≤ 512 := by omega
    simp only [HuffTree.load, HuffTree.load_next]
    rw [execAll_cons (exec_tnWrInt (s := { s with tn := m }) clear (by omega)), execAll_append (ihl fitsLeft), ihr fitsRight,
      HuffTree.loadInto]

/-- A load keeps the entries outside the range of its indices. -/
theorem HuffTree.read_loadInto_outside (outside : j < i ∨ i + tree.nodes ≤ j) :
    Table.read noNode (tree.loadInto i m) j = Table.read noNode m j := by
  induction tree generalizing i m with
  | leaf sym =>
    rw [HuffTree.nodes] at outside
    exact Table.read_write_other (by omega)
  | node l r ihl ihr =>
    rw [HuffTree.nodes] at outside
    rw [HuffTree.loadInto, ihr (by omega), ihl (by omega), Table.read_write_other (by omega)]

/-- Nodes that agree with the loaded table on the range of the load's indices hold the tree. -/
theorem HuffTree.storedAt_of_loadInto {node : NodeIndex → TreeNode}
    (agree : ∀ k, i ≤ k → k < i + tree.nodes → node (BitVec.ofNat 9 k) = Table.read noNode (tree.loadInto i m) k) :
    tree.StoredAt node (BitVec.ofNat 9 i) := by
  induction tree generalizing i m with
  | leaf sym =>
    have top : node (BitVec.ofNat 9 i) = leafEntry sym := by
      rw [agree i (Nat.le_refl i) (Nat.lt_succ_self i), HuffTree.loadInto, Table.read_write_same]
    rw [HuffTree.StoredAt, top]
    exact ⟨rfl, rfl, rfl⟩
  | node l r ihl ihr =>
    simp only [HuffTree.nodes, HuffTree.loadInto] at agree
    have top : node (BitVec.ofNat 9 i) = parentEntry (i + 1) (i + 1 + l.nodes) := by
      rw [agree i (Nat.le_refl i) (by omega), HuffTree.read_loadInto_outside (by omega), HuffTree.read_loadInto_outside (by omega),
        Table.read_write_same]
    rw [HuffTree.StoredAt, top]
    exact ⟨⟨rfl, rfl, rfl, rfl⟩,
      ihl fun k low high => (agree k (by omega) (by omega)).trans (HuffTree.read_loadInto_outside (.inl high)),
      ihr fun k low high => agree k (by omega) (by omega)⟩

end

/-- Settles O49: after the `TN_CLR` the load leaves `HuffTree.loadInto` of the empty table (`execAll_load`), which holds the tree. -/
theorem preorderLoadStoresTheTree : Obligations.PreorderLoadStoresTheTree := by
  intro tree s clear small
  have fits : 0 + tree.nodes ≤ 512 := by omega
  have run : execAll (.tnClr :: (tree.load 0).1) s = .next { s with tn := tree.loadInto 0 [] } :=
    (execAll_cons (exec_tnClr clear)).trans (execAll_load clear fits)
  refine ⟨_, run, HuffTree.storedAt_of_loadInto (m := []) fun k _ high => ?_, rfl⟩
  rw [State.nodeRead, toNat_nodeIndex (by omega)]

end Sys2Proof.Machine
end

section
/-!
Settles O12: taking a word, executing a command and the discard check all answer a next state.
-/

namespace Sys2Proof.Machine

/-- A checked command answers a next state, whatever its pseudocode is. -/
theorem exists_next_of_runChecked (body : State → Flow) (s : State) : ∃ t, runChecked body s = .next t := by
  by_cases clear : s.err = 0#4
  · exact ⟨_, runChecked_of_clear clear⟩
  · exact ⟨_, runChecked_of_faulted clear⟩

/-- Settles O12: a legal word runs a command (`exec_effect`), an illegal one is checked for discard, and with no word the step idles. -/
theorem everyStepAnswersANextState : Obligations.EveryStepAnswersANextState := by
  intro s
  cases word : s.program[s.pc]? with
  | none => exact ⟨s, step_of_none word⟩
  | some w =>
    rw [step_of_some word]
    cases decoded : decode w with
    | ok i =>
      obtain ⟨t, h, -⟩ := exec_effect i s.advance
      exact ⟨t, (execWord_of_legal decoded _).trans h⟩
    | error why =>
      rw [execWord_of_illegal decoded]
      exact exists_next_of_runChecked _ _

end Sys2Proof.Machine
end

section
/-!
Settles O50, O51, O52 and O53: the bit unpacker's commands on a state without a fault (R151 to R153). The walks of a held byte are those of
Laws/Exec.lean; with no byte held a `BU_END` takes one of the branches of `endEmpty`.
-/

namespace Sys2Proof.Machine

section
variable {s : State} {b : Byte}

theorem exec_buCfg {pad : BitVec 3} {nsym : BitVec 32} (clear : s.err = 0#4) :
    exec (.buCfg pad nsym) s = .next { s with buPad := pad, buNsym := nsym } := by
  rw [exec, execBuCfg, runChecked_of_clear clear]
  rfl

theorem exec_buByte_first (clear : s.err = 0#4) (none : s.holdv = false) :
    exec (.buByte b) s = .next { s with hold := b, holdv := true } := by
  rw [exec, execBuByte, runChecked_of_clear clear, if_neg (by simp [none])]
  rfl

/-! ### The end of an empty payload (R153) -/

theorem exec_buEnd_of_padding (clear : s.err = 0#4) (none : s.holdv = false) (padding : s.buPad ≠ 0#3) :
    exec .buEnd s = .next (s.enterFault .corruptPayload (payloadInfo 5#4 0#9)) := by
  rw [exec, execBuEnd_of_empty clear none, endEmpty, if_pos padding]
  rfl

theorem exec_buEnd_of_leafRoot (clear : s.err = 0#4) (none : s.holdv = false) (padding : s.buPad = 0#3)
    (valid : (s.nodeRead 0#9).valid = true) (leaf : (s.nodeRead 0#9).leaf = true) :
    exec .buEnd s = .next (s.emitSyoTimes s.buNsym.toNat (s.nodeRead 0#9).sym) := by
  rw [exec, execBuEnd_of_empty clear none]
  simp [endEmpty, padding, valid, leaf]

theorem exec_buEnd_of_innerRoot (clear : s.err = 0#4) (none : s.holdv = false) (padding : s.buPad = 0#3)
    (valid : (s.nodeRead 0#9).valid = true) (inner : (s.nodeRead 0#9).leaf = false) : exec .buEnd s = .next s := by
  rw [exec, execBuEnd_of_empty clear none]
  simp [endEmpty, padding, valid, inner]

end

/-! ### The obligations -/

/-- Settles O50: with ERR = 0 the discard check lets the two writes through. -/
theorem buCfgSetsPaddingAndSymbolCount : Obligations.BuCfgSetsPaddingAndSymbolCount :=
  fun _ _ _ => exec_buCfg

/-- Settles O51: nothing held, a byte whose bits walk the tree, a byte with a bit that faults. -/
theorem buByteWalksTheHeldByteAndHoldsItsOwn : Obligations.BuByteWalksTheHeldByteAndHoldsItsOwn :=
  ⟨fun _ _ => exec_buByte_first,
    fun _ _ _ _ => execBuByte_of_walks,
    fun _ _ _ _ _ _ _ _ _ => execBuByte_of_fault⟩

/-- Settles O52: the bits above the padding walk to the root, to another node, or up to a bit that faults. -/
theorem buEndWalksTheLastByte : Obligations.BuEndWalksTheLastByte :=
  ⟨fun _ _ => execBuEnd_of_walks,
    fun _ _ _ => execBuEnd_of_midPath,
    fun _ _ _ _ _ _ _ _ => execBuEnd_of_fault⟩

/-- Settles O53: the four cases are the branches of `endEmpty`; the unwritten root is `exec_buEnd_of_noRoot`. -/
theorem buEndOfAnEmptyPayload : Obligations.BuEndOfAnEmptyPayload :=
  fun _ clear none =>
    ⟨exec_buEnd_of_padding clear none, exec_buEnd_of_noRoot clear none, exec_buEnd_of_leafRoot clear none,
      exec_buEnd_of_innerRoot clear none⟩

end Sys2Proof.Machine
end

section
/-!
Settles O54: what a run of commands does to the unpacker is said by `Unpacks`, which every command of an unpacking run meets
(`Effect.unpacks`) and which composes (`Unpacks.trans`); a `BU_END` then walks the last byte's bits above the padding (R153, R156).
-/

namespace Sys2Proof.Machine

/-! ### The bits of a payload less its padding -/

/-- The bits of a payload's bytes, less as many at the end as the padding count says (R156). -/
def unpaddedBits (pad : BitVec 3) (bytes : List Byte) : List Bool :=
  (bytes.flatMap byteBits).take ((bytes.flatMap byteBits).length - pad.toNat)

theorem unpaddedBits_nil (pad : BitVec 3) : unpaddedBits pad [] = [] := List.take_nil

theorem flatMap_byteBits_concat (bytes : List Byte) (b : Byte) :
    (bytes ++ [b]).flatMap byteBits = bytes.flatMap byteBits ++ byteBits b := by
  rw [List.flatMap_append, List.flatMap_singleton]

/-- The padding is in the last byte, so the bits of the other bytes are walked whole. -/
theorem unpaddedBits_concat (pad : BitVec 3) (bytes : List Byte) (b : Byte) :
    unpaddedBits pad (bytes ++ [b]) = bytes.flatMap byteBits ++ lastByteBits pad b := by
  have small := pad.isLt
  have split : (bytes.flatMap byteBits).length + 8 - pad.toNat = (bytes.flatMap byteBits).length + (8 - pad.toNat) := by omega
  rw [unpaddedBits, flatMap_byteBits_concat, List.length_append, length_byteBits, split, List.take_length_add_append, lastByteBits]

/-! ### What a run of commands unpacks -/

/-- The byte held back, if there is one. -/
def heldBytes (s : State) : List Byte := if s.holdv then [s.hold] else []

theorem heldBytes_of_held {s : State} (held : s.holdv = true) : heldBytes s = [s.hold] := if_pos held

theorem heldBytes_of_none {s : State} (none : s.holdv = false) : heldBytes s = [] := by simp [heldBytes, none]

/-- From one state to another the bytes were given to the unpacker, which walked all of them but the one it holds. -/
structure Unpacks (bytes : List Byte) (s t : State) : Prop where
  /-- TN is unchanged. -/
  tn : t.tn = s.tn
  /-- The bytes that are not held any more were walked, and gave their symbols. -/
  walked : ∃ done out, heldBytes s ++ bytes = done ++ heldBytes t ∧
    Walks s.nodeRead s.cur (done.flatMap byteBits) out t.cur ∧ t.syo = s.syo ++ out
  /-- A byte is held from the first one on. -/
  held : t.holdv = (s.holdv || !bytes.isEmpty)

section
variable {i : Instr} {is : List Instr} {s m t : State} {bytes bytes' : List Byte}

theorem Unpacks.nodeRead (h : Unpacks bytes s t) : t.nodeRead = s.nodeRead := by
  funext i
  rw [State.nodeRead, h.tn, State.nodeRead]

/-- What keeps TN, the walker and SYO unpacks no byte. -/
theorem Unpacks.of_same (tn : Column.tn.same s t) (walker : Column.walker.same s t) (syo : Column.syo.same s t) :
    Unpacks [] s t := by
  obtain ⟨cur, hold, holdv⟩ := walker
  refine ⟨tn, ⟨[], [], ?_, cur ▸ .done t.cur, ?_⟩, ?_⟩
  · simp [heldBytes, hold, holdv]
  · rw [List.append_nil]; exact syo
  · simp [holdv]

theorem Unpacks.trans (first : Unpacks bytes s m) (rest : Unpacks bytes' m t) : Unpacks (bytes ++ bytes') s t := by
  obtain ⟨done, out, given, walks, syo⟩ := first.walked
  obtain ⟨done', out', given', walks', syo'⟩ := rest.walked
  rw [first.nodeRead] at walks'
  refine ⟨rest.tn.trans first.tn, ⟨done ++ done', out ++ out', ?_, ?_, ?_⟩, ?_⟩
  · rw [← List.append_assoc, given, List.append_assoc, given', List.append_assoc]
  · rw [List.flatMap_append]
    exact walks.append walks'
  · rw [syo', syo, List.append_assoc]
  · cases bytes <;> simp [rest.held, first.held]

theorem payloadBytes_cons : payloadBytes (i :: is) = payloadBytes [i] ++ payloadBytes is := List.filterMap_append (l := [i])

/-- One command of an unpacking run without a fault: a `BU_BYTE` gives its byte, and the others write neither TN, the walker nor SYO
(R39). -/
theorem Effect.unpacks (e : Effect i s t) (run : inUnpackingRun i = true) (clear : t.err = 0#4) :
    Unpacks (payloadBytes [i]) s t := by
  cases i with
  | buByte b =>
    cases e with
    | buByteFirst _ _ _ none =>
      exact ⟨rfl, ⟨[], [], by simp [heldBytes, none, payloadBytes], .done _, by simp⟩, by simp [payloadBytes]⟩
    | buByte _ _ out last _ held walked =>
      exact ⟨rfl, ⟨[s.hold], out, by simp [heldBytes, held, payloadBytes], by simpa using walked, rfl⟩, by simp [held]⟩
    | buByteFault => exact absurd clear (State.enterFault_err_ne_zero _ _ _)
    | discarded => contradiction
  | reset | tnClr | tnWr | buEnd => exact absurd run Bool.false_ne_true
  | _ =>
    exact Unpacks.of_same (e.same (by simp [writtenColumns])) (e.same (by simp [writtenColumns])) (e.same (by simp [writtenColumns]))

/-- An unpacking run without a fault unpacks its payload bytes. -/
theorem unpacks_of_execAll (run : ∀ i ∈ is, inUnpackingRun i = true) (h : execAll is s = .next t) (clear : t.err = 0#4) :
    Unpacks (payloadBytes is) s t := by
  induction is generalizing s with
  | nil =>
    cases h
    exact Unpacks.of_same (Column.same_refl _ _) (Column.same_refl _ _) (Column.same_refl _ _)
  | cons i is ih =>
    obtain ⟨runFirst, runRest⟩ := List.forall_mem_cons.mp run
    obtain ⟨m, hm, e⟩ := exec_effect i s
    rw [execAll_cons hm] at h
    have noReset : Instr.reset ∉ is := fun mem => absurd (runRest _ mem) Bool.false_ne_true
    rw [payloadBytes_cons]
    exact (e.unpacks runFirst (clear_of_execAll noReset h clear)).trans (ih runRest h)

/-- From no byte held, a payload that is not empty has all its bytes walked but the last one, which is held. -/
theorem Unpacks.walked_of_payload (unpacks : Unpacks bytes s t) (none : s.holdv = false) (payload : bytes ≠ []) :
    t.holdv = true ∧ ∃ done out, bytes = done ++ [t.hold] ∧ Walks s.nodeRead s.cur (done.flatMap byteBits) out t.cur ∧
      t.syo = s.syo ++ out := by
  have held : t.holdv = true := by rw [unpacks.held]; simp [payload]
  obtain ⟨done, out, given, walks, syo⟩ := unpacks.walked
  rw [heldBytes_of_none none, heldBytes_of_held held] at given
  exact ⟨held, done, out, given, walks, syo⟩

/-- A `BU_END` that leaves no fault has walked the held byte's bits above the padding to the root. -/
theorem Effect.walks_of_buEnd (e : Effect .buEnd s t) (held : s.holdv = true) (clear : t.err = 0#4) :
    ∃ out, Walks s.nodeRead s.cur (lastByteBits s.buPad s.hold) out 0#9 ∧ t.syo = s.syo ++ out ∧ t.cur = 0#9 := by
  cases e with
  | buEnd _ out _ _ walked => exact ⟨out, walked, rfl, rfl⟩
  | buEndMidPath | buEndFault | buEndPadding | buEndNoRoot => exact absurd clear (State.enterFault_err_ne_zero _ _ _)
  | buEndLeafRoot _ _ none | buEndInnerRoot _ _ none => simp [held] at none
  | discarded => contradiction

end

/-- Settles O54: the run has walked all payload bytes but the last (`unpacks_of_execAll`), and a `BU_END` without fault walks the last one's
bits above the padding to the root (`Effect.walks_of_buEnd`). -/
theorem unpackingRunGivesTheWalkOfItsPayload : Obligations.UnpackingRunGivesTheWalkOfItsPayload := by
  intro is s t _ none cur run payload h clear bits
  have unpacks := unpacks_of_execAll run h clear
  obtain ⟨held, done, out, given, walks, syo⟩ := unpacks.walked_of_payload none payload
  rw [cur] at walks
  refine ⟨⟨out, ?_, syo⟩, fun u hu clearEnd => ?_⟩
  · have allButLast : bits.take (bits.length - 8) = done.flatMap byteBits := by
      simp [bits, given]
    rwa [allButLast]
  · obtain ⟨outEnd, walksEnd, syoEnd, curEnd⟩ := (effect_of_exec hu).walks_of_buEnd held clearEnd
    rw [unpacks.nodeRead] at walksEnd
    refine ⟨⟨out ++ outEnd, ?_, by rw [syoEnd, syo, List.append_assoc]⟩, curEnd⟩
    have unpadded : bits.take (bits.length - t.buPad.toNat) = done.flatMap byteBits ++ lastByteBits t.buPad t.hold := by
      rw [← unpaddedBits_concat, ← given, unpaddedBits]
    rw [unpadded]
    exact walks.append walksEnd

end Sys2Proof.Machine
end

section
/-!
Settles O55 and O56: the round trips of R157. Packing a text leaves the padded bytes of its concatenated codes (`execAll_bpStr` with R124).
Less their padding those bytes are the codes again (`unpaddedBits_paddedBytes`), each of which walks the stored tree from the root to its
symbol's leaf and so back to the root (`HuffTree.Path.walks`).
-/

namespace Sys2Proof.Machine

/-! ### Packing a text -/

/-- The codes in CT of a text's symbols, one after the other. -/
def textBits (s : State) (syms : List Symbol) : List Bool := syms.flatMap fun sym => codeBits (s.ctRead sym)

section
variable {s t : State} {syms : List Symbol}

theorem packedSymbols_bpStr (syms : List Symbol) : packedSymbols (bpStr syms) = syms := by
  rw [packedSymbols, bpStr, List.filterMap_map]
  exact List.filterMap_some

theorem inPackingRun_of_mem_bpStr {i : Instr} (h : i ∈ bpStr syms) : inPackingRun i = true := by
  obtain ⟨sym, -, rfl⟩ := List.mem_map.mp h
  rfl

theorem pushBits_err (s : State) (bits : List Bool) : (pushBits s bits).err = s.err := by rw [pushBits_eq]

theorem pushBits_ctRead (s : State) (bits : List Bool) (sym : Symbol) : (pushBits s bits).ctRead sym = s.ctRead sym := by
  rw [pushBits_eq]
  rfl

/-- Pushes of symbols that have codes raise no fault, and are one loop of R121 over all code bits. -/
theorem execAll_bpStr (clear : s.err = 0#4) (coded : ∀ sym ∈ syms, (s.ctRead sym).valid = true) :
    execAll (bpStr syms) s = .next (pushBits s (textBits s syms)) := by
  induction syms generalizing s with
  | nil => rfl
  | cons sym syms ih =>
    obtain ⟨codedFirst, codedRest⟩ := List.forall_mem_cons.mp coded
    have rest := ih (s := pushBits s (codeBits (s.ctRead sym))) ((pushBits_err s _).trans clear)
      fun k hk => by rw [pushBits_ctRead]; exact codedRest k hk
    rw [bpStr, List.map_cons, execAll_cons (exec_bpPush_of_code clear codedFirst), ← bpStr, rest, ← pushBits_append]
    simp only [textBits, pushBits_ctRead, List.flatMap_cons]

theorem Effect.clear_of_bpEnd (e : Effect .bpEnd s t) (clear : s.err = 0#4) : t.err = 0#4 := by
  cases e <;> exact clear

/-- Packing a text of symbols that have codes, from an empty buffer: the padded bytes of the codes, their padding count, and no fault
(R124). -/
theorem execAll_bpStr_bpEnd (clear : s.err = 0#4) (none : s.nbits = 0#3) (acc : s.acc = 0#8)
    (coded : ∀ sym ∈ syms, (s.ctRead sym).valid = true) :
    ∃ t, execAll (bpStr syms ++ [.bpEnd]) s = .next t ∧ t.err = 0#4 ∧ t.pko = s.pko ++ paddedBytes (textBits s syms) ∧
      t.pad.toNat = paddingOf (textBits s syms).length := by
  have pushes := execAll_bpStr clear coded
  have clearPushes := (pushBits_err s (textBits s syms)).trans clear
  obtain ⟨-, -, t, last, pko, -, pad, -⟩ := packingRunEmitsThePaddedCodes (bpStr syms) s _ clear none acc
    (fun _ => inPackingRun_of_mem_bpStr) pushes clearPushes
  rw [packedSymbols_bpStr] at pko pad
  exact ⟨t, (execAll_append pushes).trans (execAll_cons last), (effect_of_exec last).clear_of_bpEnd clearPushes, pko, pad⟩

end

/-! ### Padded bytes less their padding -/

/-- The bits of the bytes cut off a sequence, and those left over, are the sequence. -/
theorem flatMap_byteBits_fullBytes (l : List Bool) : (fullBytes l).flatMap byteBits ++ leftover l = l := by
  induction l using groups_induction with
  | short l h => rw [fullBytes_of_short h, leftover_of_short h]; rfl
  | group g l h ih => rw [fullBytes_group h, leftover_group h, List.flatMap_cons, byteBits_packByte h, List.append_assoc, ih]

theorem flatMap_byteBits_paddedBytes (l : List Bool) :
    (paddedBytes l).flatMap byteBits = l ++ List.replicate (paddingOf l.length) false := by
  have whole : leftover (l ++ List.replicate (paddingOf l.length) false) = [] := by
    apply List.eq_nil_of_length_eq_zero
    rw [length_leftover, List.length_append, List.length_replicate, paddingOf]
    omega
  have cut := flatMap_byteBits_fullBytes (l ++ List.replicate (paddingOf l.length) false)
  rwa [whole, List.append_nil] at cut

theorem unpaddedBits_paddedBytes {pad : BitVec 3} {l : List Bool} (h : pad.toNat = paddingOf l.length) :
    unpaddedBits pad (paddedBytes l) = l := by
  rw [unpaddedBits, flatMap_byteBits_paddedBytes, h]
  simp

/-! ### Walks along the paths of a tree -/

section
variable {node : NodeIndex → TreeNode} {cur last : NodeIndex}

/-- A walk of one sequence and then another passes through a node between them. -/
theorem Walks.of_append {l₁ l₂ : List Bool} {out : List Symbol} (h : Walks node cur (l₁ ++ l₂) out last) :
    ∃ mid o₁ o₂, out = o₁ ++ o₂ ∧ Walks node cur l₁ o₁ mid ∧ Walks node mid l₂ o₂ last := by
  induction l₁ generalizing cur out with
  | nil => exact ⟨cur, [], out, rfl, .done cur, h⟩
  | cons bit l₁ ih =>
    cases h with
    | step _ next _ _ _ first outs step rest =>
      obtain ⟨mid, o₁, o₂, rfl, walks, walks'⟩ := ih rest
      exact ⟨mid, first ++ o₁, o₂, (List.append_assoc ..).symm, .step _ _ _ _ _ _ _ step walks, walks'⟩

/-- From a node with a stored tree as the child that the bit selects, the path goes on through that tree: the child is the leaf at its
end, or an internal node from where the rest of the path is walked. -/
theorem HuffTree.Path.walks_cons {child : HuffTree} {bit : Bool} {p : List Bool} {sym : Symbol} {next : NodeIndex}
    (here : (node cur).valid = true ∧ (node cur).leaf = false)
    (edge : if bit then (node cur).rp = true ∧ (node cur).right = next else (node cur).lp = true ∧ (node cur).left = next)
    (stored : child.StoredAt node next) (path : child.Path p sym) (walks : p ≠ [] → Walks node next p [sym] 0#9) :
    Walks node cur (bit :: p) [sym] 0#9 := by
  cases path with
  | here =>
    obtain ⟨valid, leaf, rfl⟩ := stored
    exact .step _ _ _ _ _ _ [] (.leaf _ _ _ here edge ⟨valid, leaf⟩) (.done _)
  | goLeft | goRight =>
    obtain ⟨⟨valid, inner, -⟩, -⟩ := stored
    exact .step _ _ _ _ _ [] _ (.inner _ _ _ here edge ⟨valid, inner⟩) (walks (List.cons_ne_nil _ _))

/-- A path of at least one bit through a stored tree walks to its leaf, and so back to the root (R155). -/
theorem HuffTree.Path.walks {tree : HuffTree} {p : List Bool} {sym : Symbol} (path : tree.Path p sym)
    (stored : tree.StoredAt node cur) (nonempty : p ≠ []) : Walks node cur p [sym] 0#9 := by
  induction path generalizing cur with
  | here => exact absurd rfl nonempty
  | goLeft l r p sym rest ih =>
    obtain ⟨⟨valid, inner, left, -⟩, storedLeft, -⟩ := stored
    exact rest.walks_cons ⟨valid, inner⟩ ⟨left, rfl⟩ storedLeft (ih storedLeft)
  | goRight l r p sym rest ih =>
    obtain ⟨⟨valid, inner, -, right⟩, -, storedRight⟩ := stored
    exact rest.walks_cons ⟨valid, inner⟩ ⟨right, rfl⟩ storedRight (ih storedRight)

end

theorem HuffTree.Path.ne_nil {l r : HuffTree} {p : List Bool} {sym : Symbol} (path : (HuffTree.node l r).Path p sym) : p ≠ [] := by
  cases path <;> exact List.cons_ne_nil _ _

/-- The codes of a text walk the stored tree from the root to the root and give the text. -/
theorem walks_textBits {l r : HuffTree} {s : State} {syms : List Symbol} {node : NodeIndex → TreeNode}
    (stored : (HuffTree.node l r).StoredAt node 0#9) (coded : ∀ sym ∈ syms, (HuffTree.node l r).CodedIn s sym) :
    Walks node 0#9 (textBits s syms) syms 0#9 := by
  induction syms with
  | nil => exact .done _
  | cons sym syms ih =>
    obtain ⟨⟨-, path⟩, codedRest⟩ := List.forall_mem_cons.mp coded
    exact (path.walks stored path.ne_nil).append (ih codedRest)

/-! ### Unpacking a payload -/

section
variable {s : State}

/-- From no byte held, bytes that walk the tree and one more byte raise no fault, and leave that byte held. -/
theorem execAll_buBytes {bytes : List Byte} {b : Byte} {out : List Symbol} {mid : NodeIndex} (clear : s.err = 0#4)
    (none : s.holdv = false) (walks : Walks s.nodeRead s.cur (bytes.flatMap byteBits) out mid) :
    execAll (buBytes (bytes ++ [b])) s = .next { s with syo := s.syo ++ out, cur := mid, hold := b, holdv := true } := by
  induction bytes using List.reverseRecOn generalizing b out mid with
  | nil =>
    cases walks
    rw [List.append_nil]
    exact execAll_cons (exec_buByte_first clear none)
  | append_singleton bytes held ih =>
    rw [flatMap_byteBits_concat] at walks
    obtain ⟨between, o₁, o₂, rfl, walks, walksHeld⟩ := walks.of_append
    rw [buBytes, List.map_append, ← buBytes, execAll_append (ih walks), ← List.append_assoc s.syo]
    exact execAll_cons (execBuByte_of_walks clear rfl walksHeld)

/-- A run over a payload whose bits less the padding walk from the root to the root gives their symbols and raises no fault (R156). An empty
payload needs no padding and an internal node as the root. -/
theorem execAll_buBytes_buEnd {bytes : List Byte} {out : List Symbol} (clear : s.err = 0#4) (none : s.holdv = false)
    (cur : s.cur = 0#9) (empty : bytes = [] → s.buPad = 0#3)
    (root : (s.nodeRead 0#9).valid = true ∧ (s.nodeRead 0#9).leaf = false)
    (walks : Walks s.nodeRead 0#9 (unpaddedBits s.buPad bytes) out 0#9) :
    ∃ t, execAll (buBytes bytes ++ [.buEnd]) s = .next t ∧ t.syo = s.syo ++ out ∧ t.err = 0#4 := by
  rcases List.eq_nil_or_concat' bytes with rfl | ⟨bytes, b, rfl⟩
  · rw [unpaddedBits_nil] at walks
    cases walks
    exact ⟨s, execAll_cons (exec_buEnd_of_innerRoot clear none (empty rfl) root.1 root.2), (List.append_nil _).symm, clear⟩
  · rw [unpaddedBits_concat] at walks
    obtain ⟨mid, o₁, o₂, rfl, walks, walksLast⟩ := walks.of_append
    exact ⟨_, (execAll_append (execAll_buBytes clear none (cur ▸ walks))).trans
      (execAll_cons (execBuEnd_of_walks clear rfl walksLast)), List.append_assoc .., clear⟩

end

/-- Settles O55: the packed bytes less their padding are the codes, which walk the tree from the root to the root and give the text. -/
theorem packedSymbolsUnpackToThemselves : Obligations.PackedSymbolsUnpackToThemselves := by
  intro l r syms s clear none acc coded
  obtain ⟨t, packed, clearEnd, pko, pad⟩ := execAll_bpStr_bpEnd clear none acc fun sym hs => (coded sym hs).1
  refine ⟨t, _, packed, clearEnd, pko, fun v x clearV noneV curV stored => ?_⟩
  obtain ⟨valid, inner, -⟩ := stored.1
  have unpadded := unpaddedBits_paddedBytes pad
  rw [List.cons_append, execAll_cons (exec_buCfg clearV)]
  refine execAll_buBytes_buEnd clearV noneV curV (fun empty => ?_) ⟨valid, inner⟩ ?_
  · rw [empty, unpaddedBits_nil] at unpadded
    exact BitVec.eq_of_toNat_eq (by rw [pad, ← unpadded]; rfl)
  · show Walks v.nodeRead 0#9 (unpaddedBits t.pad _) syms 0#9
    rw [unpadded]
    exact walks_textBits stored coded

/-! ### A tree of one leaf -/

theorem codeBits_of_len_zero {e : CodeEntry} (h : e.len = 0#8) : codeBits e = [] :=
  List.eq_nil_of_length_eq_zero (by simp [h])

/-- Settles O56: the empty code packs no bit, and a `BU_END` with no byte held gives BU_NSYM copies of the root's symbol. -/
theorem singleSymbolStreamRoundTrips : Obligations.SingleSymbolStreamRoundTrips := by
  intro sym k s small clear none valid len
  have noBits : textBits s (List.replicate k sym) = [] := by
    simp [textBits, codeBits_of_len_zero len]
  have pushes : execAll (bpStr (List.replicate k sym)) s = .next s := by
    rw [execAll_bpStr clear fun j hj => (List.eq_of_mem_replicate hj) ▸ valid, noBits]
    rfl
  refine ⟨_, (execAll_append pushes).trans (execAll_cons (exec_bpEnd_of_empty clear none)), clear, rfl, rfl,
    fun v clearV noneV stored => ?_⟩
  obtain ⟨rootValid, leaf, rfl⟩ := stored
  have copies : (BitVec.ofNat 32 k).toNat = k := Nat.mod_eq_of_lt small
  refine ⟨_, (execAll_cons (exec_buCfg clearV)).trans
    (execAll_cons (exec_buEnd_of_leafRoot clearV noneV rfl rootValid leaf)), ?_, clearV⟩
  exact congrArg (fun n => v.syo ++ List.replicate n (v.nodeRead 0#9).sym) copies

end Sys2Proof.Machine
end

section
/-!
Settles O21, O22, O31 and O32: the three commands that run whatever ERR is (R180 to R182). `RESET` and power-on reset differ in the channels
alone, and the status word is its three fields one after the other.
-/

namespace Sys2Proof.Machine

/-! ### The commands as updates of the state -/

theorem exec_nop (s : State) : exec .nop s = .next s := rfl

theorem exec_reset (s : State) : exec .reset s = .next s.resetRegisters := rfl

theorem exec_rdStatus (s : State) : exec .rdStatus s = .next (s.emitRsp (statusWord s.errInfo s.err)) := rfl

/-! ### NOP and the two resets -/

/-- Settles O31: `NOP` has no discard check. -/
theorem nopChangesNothing : Obligations.NopChangesNothing := exec_nop

/-- Settles O21: the tables after `RESET` list no entry, and its registers are those of `State.reset`. -/
theorem resetRestoresRegistersAndMemories : Obligations.ResetRestoresRegistersAndMemories := by
  intro s
  refine ⟨s.resetRegisters, exec_reset s, fun _ => rfl, fun _ => rfl, fun _ => rfl, ?_⟩
  simp

/-- `RESET` is power-on reset with the channels kept (R220, R181 d). -/
theorem State.resetRegisters_eq_powerOnReset (s : State) :
    s.resetRegisters = { s.powerOnReset with pko := s.pko, syo := s.syo, rsp := s.rsp } := rfl

/-- From no words, power-on reset leaves the initial state. -/
theorem State.powerOnReset_of_noWords {s : State} (program : s.program = []) (pc : s.pc = 0) : s.powerOnReset = State.reset := by
  rw [State.powerOnReset, program, pc]
  rfl

/-- Settles O22: `RESET` is power-on reset with the channels kept, and power-on reset takes them from `State.reset`. -/
theorem powerOnResetIsResetWithEmptyChannels : Obligations.PowerOnResetIsResetWithEmptyChannels := fun s =>
  ⟨(exec_reset s).trans (congrArg _ s.resetRegisters_eq_powerOnReset), rfl, rfl, rfl, rfl, State.powerOnReset_of_noWords⟩

/-! ### The status word (R182) -/

section
variable (errInfo : BitVec 16) (err : BitVec 4)

theorem statusWord_errInfo : (statusWord errInfo err).extractLsb' 16 16 = errInfo := by
  rw [statusWord]
  iterate 3 rw [extract_append_high _ _ _ _ (by omega)]
  exact extract_self errInfo

theorem statusWord_reserved : (statusWord errInfo err).extractLsb' 4 12 = 0#12 := by
  rw [statusWord, extract_append_high _ _ _ _ (by omega), BitVec.append_assoc, BitVec.cast_eq]
  exact extract_append_low _ _ _ _ (by omega)

theorem statusWord_err : (statusWord errInfo err).extractLsb' 0 4 = err := by
  rw [statusWord, extract_append_low _ _ _ _ (by omega)]
  exact extract_self err

theorem statusWord_eq_zero_iff : statusWord errInfo err = 0#32 ↔ errInfo = 0#16 ∧ err = 0#4 := by
  constructor
  · intro h
    have errInfo_eq := statusWord_errInfo errInfo err
    have err_eq := statusWord_err errInfo err
    rw [h] at errInfo_eq err_eq
    exact ⟨errInfo_eq.symm, err_eq.symm⟩
  · rintro ⟨rfl, rfl⟩
    rfl

end

/-- With no fault recorded there is no detail either (R33). -/
theorem FaultRecordOk.info_eq_zero {info : BitVec 16} (record : FaultRecordOk 0#4 info) : info = 0#16 := by
  rcases record with ⟨-, info_eq⟩ | ⟨_, code, -⟩ | ⟨_, _, code, -⟩ | ⟨_, _, code, -⟩
  · exact info_eq
  all_goals exact absurd code (by decide)

/-- Settles O32: the appended word is `statusWord`, and by the invariant ERRINFO is 0 when ERR is. -/
theorem rdStatusAnswersTheFaultRegisters : Obligations.RdStatusAnswersTheFaultRegisters := by
  refine fun s => ⟨statusWord s.errInfo s.err, exec_rdStatus s, statusWord_errInfo _ _, statusWord_reserved _ _, statusWord_err _ _,
    fun inv => ?_⟩
  rw [statusWord_eq_zero_iff]
  exact and_iff_right_of_imp fun clear => (clear ▸ inv.record).info_eq_zero

end Sys2Proof.Machine
end

section
/-!
Settles O8, O9, O10, O15, O16 and O17: the fault state. A command with ERR = 0 enters it on its own fault paths of `Effect` only (R194), and
there every word is dropped but the words of `RD_STATUS` and `RESET` (R197).
-/

namespace Sys2Proof.Machine

/-! ### Fault details (R192) -/

theorem byteInfo_eq_append (b : BitVec 8) : byteInfo b = 0x00#8 ++ b := (BitVec.setWidth_eq_append (by omega)).trans rfl

/-- A bit of a walk has three ways to fault (R155). -/
theorem WalkFault.sub_mem {node : NodeIndex → TreeNode} {cur idx : NodeIndex} {bit : Bool} {sub : BitVec 4}
    (h : WalkFault node cur bit sub idx) : sub ∈ [1#4, 2#4, 3#4] := by
  rcases h with ⟨-, rfl, -⟩ | ⟨-, -, rfl, -⟩ | ⟨-, -, -, rfl, -⟩ | ⟨-, -, -, -, rfl, -⟩ <;> decide

/-! ### Entering the fault state -/

/-- Settles O15: the paths that enter a fault are the listed ones, the others leave ERR at 0. -/
theorem commandsRaiseOnlyTheirOwnFaults : Obligations.CommandsRaiseOnlyTheirOwnFaults := by
  intro i s t clear h raised
  cases effect_of_exec h with
  | faPushFull | bpPushNoCode => exact ⟨rfl, byteInfo_eq_append _⟩
  | ctAppNoCode => exact ⟨rfl, .inl rfl⟩
  | ctAppTooLong => exact ⟨rfl, .inr rfl⟩
  | buByteFault => next fault => exact ⟨rfl, _, _, fault.sub_mem, rfl⟩
  | buEndFault => next fault => exact ⟨rfl, _, _, List.mem_append_left [4#4, 5#4] fault.sub_mem, rfl⟩
  | buEndMidPath => exact ⟨rfl, _, 4#4, by decide, rfl⟩
  | buEndPadding => exact ⟨rfl, 0#9, 5#4, by decide, rfl⟩
  | buEndNoRoot => exact ⟨rfl, Config.root, 1#4, by decide, rfl⟩
  | reset => exact absurd rfl raised
  | bpPush => exact absurd ((pushBits_err _ _).trans clear) raised
  | _ => exact absurd clear raised

/-- Settles O16: the fault paths of the other commands are fault entry in the state before the command (R196). -/
theorem faultsArePreciseAtTheCommand : Obligations.FaultsArePreciseAtTheCommand := by
  intro i s t notByte notEnd clear h raised
  cases effect_of_exec h with
  | faPushFull | ctAppNoCode | ctAppTooLong | bpPushNoCode => rfl
  | buByteFault => exact absurd rfl (notByte _)
  | buEndFault | buEndMidPath | buEndPadding | buEndNoRoot => exact absurd rfl notEnd
  | reset => exact absurd rfl raised
  | bpPush => exact absurd ((pushBits_err _ _).trans clear) raised
  | _ => exact absurd clear raised

/-! ### In the fault state (R197) -/

section
variable {s : State} {w : CommandWord} (faulted : s.err ≠ 0#4)
include faulted

/-- `NOP` is the one command of the system group beside `RD_STATUS` and `RESET`, and does nothing in any state. -/
theorem exec_of_faulted_of_ne {i : Instr} (status : i ≠ .rdStatus) (reset : i ≠ .reset) : exec i s = .next s := by
  cases i with
  | nop => exact exec_nop s
  | rdStatus => contradiction
  | reset => contradiction
  | _ => exact exec_of_faulted faulted (by simp [unitOf])

/-- A word other than the two is no word of `RD_STATUS` or `RESET` (`encode_of_decode`), so it is dropped, legal or not. -/
theorem execWord_of_faulted (status : w ≠ encode .rdStatus) (reset : w ≠ encode .reset) : execWord w s = .next s := by
  cases decoded : decode w with
  | ok i =>
    have word : encode i = w := encode_of_decode decoded
    rw [execWord_of_legal decoded]
    exact exec_of_faulted_of_ne faulted (fun h => status (h ▸ word.symm)) (fun h => reset (h ▸ word.symm))
  | error why =>
    rw [execWord_of_illegal decoded]
    exact runChecked_of_faulted faulted

end

/-- Settles O8: the two words run their commands whatever ERR is, every other word is dropped (`execWord_of_faulted`). -/
theorem faultStateDropsAllButStatusAndReset : Obligations.FaultStateDropsAllButStatusAndReset := by
  intro s w faulted word
  rw [step_of_some word]
  split
  · next h => exact h ▸ exec_rdStatus s.advance
  · split
    · next h => exact h ▸ exec_reset s.advance
    · next status reset => exact execWord_of_faulted (s := s.advance) faulted status reset

/-- Settles O9: each of these commands begins with the discard check. -/
theorem unitCommandsAreDiscardedInTheFaultState : Obligations.UnitCommandsAreDiscardedInTheFaultState :=
  fun _ _ => exec_of_faulted

/-- Settles O10: with no word the step is `idle`. -/
theorem stepWithoutAWordKeepsAllState : Obligations.StepWithoutAWordKeepsAllState := fun _ => step_of_none

/-- Settles O17: the output is the fault flag as one bit. -/
theorem faultOutputMirrorsTheFaultFlag : Obligations.FaultOutputMirrorsTheFaultFlag :=
  fun _ => (BitVec.ofBool_eq_iff_eq (b' := true)).trans bne_iff_ne

end Sys2Proof.Machine
end
